-- ==== Sys2Proof/Word.lean ====
section
/-! DEFINITION. The widths of the machine's values, one name each (`10_state.md` R15 to R31,
`30_encoding.md` R65). -/

namespace Sys2Proof

/-- 8 bits: a general register, a memory cell, a timer, the immediate `nn` (R15, R25, R27, R65). -/
abbrev Byte := BitVec 8

/-- 16 bits: `I`, `PC`, a stack entry, an address, an instruction word (R18, R19, R23, R39, R63). -/
abbrev Word := BitVec 16

/-- 12 bits: the immediate address `nnn` (R65). -/
abbrev Addr12 := BitVec 12

/-- The number of a general register, 0 to 15 (R15, R67); also the number of a key (R29). -/
abbrev Reg := Fin 16

end Sys2Proof
end

