-- ==== Sys2Proof/Syntax.lean ====
section
/-! DEFINITION. The 34 instructions, one constructor per row of spec/opcode_table.json, in its order
(`30_encoding.md` R75). Register fields are register numbers (R67), `nn` a byte, `nnn` an address of
12 bits, `n` of Dxyn a count 0 to 15 (R65, R68). -/

namespace Sys2Proof

inductive Instr where
  /-- 00E0 `CLS` (R120). -/
  | cls
  /-- 00EE `RET` (R84). -/
  | ret
  /-- 1nnn `JP nnn` (R85). -/
  | jp (nnn : Addr12)
  /-- 2nnn `CALL nnn` (R86). -/
  | call (nnn : Addr12)
  /-- 3xnn `SE Vx, nn` (R87). -/
  | seVxNn (x : Reg) (nn : Byte)
  /-- 4xnn `SNE Vx, nn` (R88). -/
  | sneVxNn (x : Reg) (nn : Byte)
  /-- 5xy0 `SE Vx, Vy` (R89). -/
  | seVxVy (x y : Reg)
  /-- 6xnn `LD Vx, nn` (R96). -/
  | ldVxNn (x : Reg) (nn : Byte)
  /-- 7xnn `ADD Vx, nn` (R97). -/
  | addVxNn (x : Reg) (nn : Byte)
  /-- 8xy0 `LD Vx, Vy` (R98). -/
  | ldVxVy (x y : Reg)
  /-- 8xy1 `OR Vx, Vy` (R99). -/
  | or (x y : Reg)
  /-- 8xy2 `AND Vx, Vy` (R100). -/
  | and (x y : Reg)
  /-- 8xy3 `XOR Vx, Vy` (R101). -/
  | xor (x y : Reg)
  /-- 8xy4 `ADD Vx, Vy` (R102). -/
  | addVxVy (x y : Reg)
  /-- 8xy5 `SUB Vx, Vy` (R103). -/
  | sub (x y : Reg)
  /-- 8xy6 `SHR Vx` (R104); `y` is decoded and selects nothing (R67). -/
  | shr (x y : Reg)
  /-- 8xy7 `SUBN Vx, Vy` (R105). -/
  | subn (x y : Reg)
  /-- 8xyE `SHL Vx` (R106); `y` is decoded and selects nothing (R67). -/
  | shl (x y : Reg)
  /-- 9xy0 `SNE Vx, Vy` (R90). -/
  | sneVxVy (x y : Reg)
  /-- Annn `LD I, nnn` (R110). -/
  | ldINnn (nnn : Addr12)
  /-- Bnnn `JP V0, nnn` (R91). -/
  | jpV0 (nnn : Addr12)
  /-- Cxnn `RND Vx, nn` (R109). -/
  | rnd (x : Reg) (nn : Byte)
  /-- Dxyn `DRW Vx, Vy, n` (R121). -/
  | drw (x y : Reg) (n : Fin 16)
  /-- Ex9E `SKP Vx` (R128). -/
  | skp (x : Reg)
  /-- ExA1 `SKNP Vx` (R129). -/
  | sknp (x : Reg)
  /-- Fx07 `LD Vx, DT` (R130). -/
  | ldVxDt (x : Reg)
  /-- Fx0A `LD Vx, K` (R127). -/
  | ldVxK (x : Reg)
  /-- Fx15 `LD DT, Vx` (R131). -/
  | ldDtVx (x : Reg)
  /-- Fx18 `LD ST, Vx` (R132). -/
  | ldStVx (x : Reg)
  /-- Fx1E `ADD I, Vx` (R111). -/
  | addIVx (x : Reg)
  /-- Fx29 `LD F, Vx` (R112). -/
  | ldFVx (x : Reg)
  /-- Fx33 `LD B, Vx` (R113). -/
  | ldBVx (x : Reg)
  /-- Fx55 `LD [I], Vx` (R114). -/
  | ldMemVx (x : Reg)
  /-- Fx65 `LD Vx, [I]` (R115). -/
  | ldVxMem (x : Reg)
  deriving DecidableEq, Repr

end Sys2Proof
end

