-- ==== Sys2Proof/WellFormed.lean ====
section
/-! DEFINITION. Which operand values an instruction may carry (`30_encoding.md` R66 to R68): the six
formats, the operand numerals each of them has, and the range checks. The typed fields of `Instr`
admit exactly the values the checks admit, so every `Instr` is well formed
(`Laws.wellFormed_all`); the checks can refuse only an operand list that is not yet an `Instr`. -/

namespace Sys2Proof

/-- The six formats of R66. -/
inductive Format where
  /-- no operand -/
  | Z
  /-- `nnn` -/
  | A
  /-- `x`, `nn` -/
  | XI
  /-- `x`, `y` -/
  | XY
  /-- `x`, `y`, `n` -/
  | XYN
  /-- `x`, function byte -/
  | XF
  deriving DecidableEq, Repr

/-- The operand numerals of an instruction; a format reads those it has and no other. -/
structure Numerals where
  x : Nat := 0
  y : Nat := 0
  n : Nat := 0
  nn : Nat := 0
  nnn : Nat := 0
  deriving DecidableEq, Repr

/-- "An `x` or `y` field is always a register number; all 16 values are legal" (R67). -/
def regOk (k : Nat) : Bool := k < 16

/-- "`nn` is an unsigned byte 0..255" (R68). -/
def byteOk (k : Nat) : Bool := k < 256

/-- "`nnn` is an unsigned 12-bit value 0..4095" (R68). -/
def addrOk (k : Nat) : Bool := k < 4096

/-- "`n` in Dxyn is an unsigned count 0..15" (R68). -/
def countOk (k : Nat) : Bool := k < 16

/-- The range checks of a format's operands (R66 to R68). -/
def Format.accepts (f : Format) (o : Numerals) : Bool :=
  match f with
  | .Z => true
  | .A => addrOk o.nnn
  | .XI => regOk o.x && byteOk o.nn
  | .XY => regOk o.x && regOk o.y
  | .XYN => regOk o.x && regOk o.y && countOk o.n
  | .XF => regOk o.x

/-- The format of each instruction (the "used by" column of R66). -/
def Instr.format (i : Instr) : Format :=
  match i with
  | .cls => .Z
  | .ret => .Z
  | .jp _ => .A
  | .call _ => .A
  | .seVxNn _ _ => .XI
  | .sneVxNn _ _ => .XI
  | .seVxVy _ _ => .XY
  | .ldVxNn _ _ => .XI
  | .addVxNn _ _ => .XI
  | .ldVxVy _ _ => .XY
  | .or _ _ => .XY
  | .and _ _ => .XY
  | .xor _ _ => .XY
  | .addVxVy _ _ => .XY
  | .sub _ _ => .XY
  | .shr _ _ => .XY
  | .subn _ _ => .XY
  | .shl _ _ => .XY
  | .sneVxVy _ _ => .XY
  | .ldINnn _ => .A
  | .jpV0 _ => .A
  | .rnd _ _ => .XI
  | .drw _ _ _ => .XYN
  | .skp _ => .XF
  | .sknp _ => .XF
  | .ldVxDt _ => .XF
  | .ldVxK _ => .XF
  | .ldDtVx _ => .XF
  | .ldStVx _ => .XF
  | .addIVx _ => .XF
  | .ldFVx _ => .XF
  | .ldBVx _ => .XF
  | .ldMemVx _ => .XF
  | .ldVxMem _ => .XF

/-- The operand numerals an instruction carries. -/
def Instr.numerals (i : Instr) : Numerals :=
  match i with
  | .cls => {}
  | .ret => {}
  | .jp nnn => { nnn := nnn.toNat }
  | .call nnn => { nnn := nnn.toNat }
  | .seVxNn x nn => { x := x.val, nn := nn.toNat }
  | .sneVxNn x nn => { x := x.val, nn := nn.toNat }
  | .seVxVy x y => { x := x.val, y := y.val }
  | .ldVxNn x nn => { x := x.val, nn := nn.toNat }
  | .addVxNn x nn => { x := x.val, nn := nn.toNat }
  | .ldVxVy x y => { x := x.val, y := y.val }
  | .or x y => { x := x.val, y := y.val }
  | .and x y => { x := x.val, y := y.val }
  | .xor x y => { x := x.val, y := y.val }
  | .addVxVy x y => { x := x.val, y := y.val }
  | .sub x y => { x := x.val, y := y.val }
  | .shr x y => { x := x.val, y := y.val }
  | .subn x y => { x := x.val, y := y.val }
  | .shl x y => { x := x.val, y := y.val }
  | .sneVxVy x y => { x := x.val, y := y.val }
  | .ldINnn nnn => { nnn := nnn.toNat }
  | .jpV0 nnn => { nnn := nnn.toNat }
  | .rnd x nn => { x := x.val, nn := nn.toNat }
  | .drw x y n => { x := x.val, y := y.val, n := n.val }
  | .skp x => { x := x.val }
  | .sknp x => { x := x.val }
  | .ldVxDt x => { x := x.val }
  | .ldVxK x => { x := x.val }
  | .ldDtVx x => { x := x.val }
  | .ldStVx x => { x := x.val }
  | .addIVx x => { x := x.val }
  | .ldFVx x => { x := x.val }
  | .ldBVx x => { x := x.val }
  | .ldMemVx x => { x := x.val }
  | .ldVxMem x => { x := x.val }

/-- An instruction is well formed when its format accepts its operand numerals. -/
def WellFormed (i : Instr) : Bool := i.format.accepts i.numerals

end Sys2Proof
end

