-- ==== Sys2Proof/Decode.lean ====
section
/-! DEFINITION. Decoding an instruction word (`30_encoding.md` R63 to R78), total on all 65536 words,
rejecting by name, and after it the encoder, written from the patterns of R75. -/

namespace Sys2Proof

/-- Why a word is no instruction: the group whose secondary field does not match (R70 to R74, R76). -/
inductive Invalid where
  /-- 0x0000 to 0x0FFF except 00E0 and 00EE (R70) -/
  | group0
  /-- 5xyN with N from 1 to F (R71) -/
  | group5
  /-- 8xyN with N in 8, 9, A, B, C, D, F (R72) -/
  | group8
  /-- 9xyN with N from 1 to F (R71) -/
  | group9
  /-- ExNN with NN other than 9E and A1 (R73) -/
  | groupE
  /-- FxNN with NN outside the nine functions (R74) -/
  | groupF
  deriving DecidableEq, Repr

/-- Why a byte sequence does not begin with an instruction. -/
inductive Reject where
  /-- fewer than the two bytes every instruction has (R63) -/
  | truncated
  /-- two bytes whose word is invalid (R76) -/
  | invalid (why : Invalid) (op : Word)
  deriving DecidableEq, Repr

/-! ## The fields of a word (R65) -/

/-- Primary opcode, `op[15:12]`. -/
def fieldP (op : Word) : Nat := (op.extractLsb' 12 4).toNat

/-- Register number `x`, `op[11:8]`. -/
def fieldX (op : Word) : Reg := (op.extractLsb' 8 4).toFin

/-- Register number `y`, `op[7:4]`. -/
def fieldY (op : Word) : Reg := (op.extractLsb' 4 4).toFin

/-- Secondary opcode or sprite height `n`, `op[3:0]`. -/
def fieldN (op : Word) : Fin 16 := (op.extractLsb' 0 4).toFin

/-- Immediate byte or secondary opcode `nn`, `op[7:0]`. -/
def fieldNN (op : Word) : Byte := op.extractLsb' 0 8

/-- Immediate address `nnn`, `op[11:0]`. -/
def fieldNNN (op : Word) : Addr12 := op.extractLsb' 0 12

/-! ## Decode (R69) -/

/-- Group 0 (R70). -/
def decode0 (op : Word) : Except Invalid Instr :=
  if op = 0x00E0#16 then .ok .cls
  else if op = 0x00EE#16 then .ok .ret
  else .error .group0

/-- Group 8, by `n` (R72). -/
def decode8 (x y : Reg) (n : Nat) : Except Invalid Instr :=
  match n with
  | 0x0 => .ok (.ldVxVy x y)
  | 0x1 => .ok (.or x y)
  | 0x2 => .ok (.and x y)
  | 0x3 => .ok (.xor x y)
  | 0x4 => .ok (.addVxVy x y)
  | 0x5 => .ok (.sub x y)
  | 0x6 => .ok (.shr x y)
  | 0x7 => .ok (.subn x y)
  | 0xE => .ok (.shl x y)
  | _ => .error .group8

/-- Group E, by `nn` (R73). -/
def decodeE (x : Reg) (nn : Byte) : Except Invalid Instr :=
  if nn = 0x9E#8 then .ok (.skp x)
  else if nn = 0xA1#8 then .ok (.sknp x)
  else .error .groupE

/-- Group F, by `nn` (R74). -/
def decodeF (x : Reg) (nn : Byte) : Except Invalid Instr :=
  if nn = 0x07#8 then .ok (.ldVxDt x)
  else if nn = 0x0A#8 then .ok (.ldVxK x)
  else if nn = 0x15#8 then .ok (.ldDtVx x)
  else if nn = 0x18#8 then .ok (.ldStVx x)
  else if nn = 0x1E#8 then .ok (.addIVx x)
  else if nn = 0x29#8 then .ok (.ldFVx x)
  else if nn = 0x33#8 then .ok (.ldBVx x)
  else if nn = 0x55#8 then .ok (.ldMemVx x)
  else if nn = 0x65#8 then .ok (.ldVxMem x)
  else .error .groupF

/-- `Decode(op)` of R69: by the primary nibble, then by the secondary field of groups 0, 5, 8, 9, E, F. -/
def decode (op : Word) : Except Invalid Instr :=
  match fieldP op with
  | 0x0 => decode0 op
  | 0x1 => .ok (.jp (fieldNNN op))
  | 0x2 => .ok (.call (fieldNNN op))
  | 0x3 => .ok (.seVxNn (fieldX op) (fieldNN op))
  | 0x4 => .ok (.sneVxNn (fieldX op) (fieldNN op))
  | 0x5 => if fieldN op = 0 then .ok (.seVxVy (fieldX op) (fieldY op)) else .error .group5
  | 0x6 => .ok (.ldVxNn (fieldX op) (fieldNN op))
  | 0x7 => .ok (.addVxNn (fieldX op) (fieldNN op))
  | 0x8 => decode8 (fieldX op) (fieldY op) (fieldN op).val
  | 0x9 => if fieldN op = 0 then .ok (.sneVxVy (fieldX op) (fieldY op)) else .error .group9
  | 0xA => .ok (.ldINnn (fieldNNN op))
  | 0xB => .ok (.jpV0 (fieldNNN op))
  | 0xC => .ok (.rnd (fieldX op) (fieldNN op))
  | 0xD => .ok (.drw (fieldX op) (fieldY op) (fieldN op))
  | 0xE => decodeE (fieldX op) (fieldNN op)
  -- the primary nibble is 0xF: the only value left
  | _ => decodeF (fieldX op) (fieldNN op)

/-- The word of two bytes as fetched: the byte at the lower address is the high byte (R43, R64). -/
def wordOfBytes (hi lo : Byte) : Word := hi ++ lo

/-- Decoding from a byte sequence: the instruction and the bytes after it (R63, R64). -/
def decodeBytes (bytes : List Byte) : Except Reject (Instr × List Byte) :=
  match bytes with
  | hi :: lo :: rest =>
    match decode (wordOfBytes hi lo) with
    | .ok i => .ok (i, rest)
    | .error why => .error (.invalid why (wordOfBytes hi lo))
  | _ => .error .truncated

/-! ## Encode (R66, R75) -/

/-- Four nibbles, the primary opcode first (R66). -/
def nibbles (p : BitVec 4) (x y n : Fin 16) : Word :=
  p ++ BitVec.ofFin (w := 4) x ++ BitVec.ofFin (w := 4) y ++ BitVec.ofFin (w := 4) n

/-- Format A. -/
def wordA (p : BitVec 4) (nnn : Addr12) : Word := p ++ nnn

/-- Formats XI and XF: a register number and a byte. -/
def wordXI (p : BitVec 4) (x : Reg) (nn : Byte) : Word := p ++ BitVec.ofFin (w := 4) x ++ nn

/-- The instruction word of each instruction (the pattern column of R75). -/
def encode (i : Instr) : Word :=
  match i with
  | .cls => 0x00E0#16
  | .ret => 0x00EE#16
  | .jp nnn => wordA 0x1 nnn
  | .call nnn => wordA 0x2 nnn
  | .seVxNn x nn => wordXI 0x3 x nn
  | .sneVxNn x nn => wordXI 0x4 x nn
  | .seVxVy x y => nibbles 0x5 x y 0x0
  | .ldVxNn x nn => wordXI 0x6 x nn
  | .addVxNn x nn => wordXI 0x7 x nn
  | .ldVxVy x y => nibbles 0x8 x y 0x0
  | .or x y => nibbles 0x8 x y 0x1
  | .and x y => nibbles 0x8 x y 0x2
  | .xor x y => nibbles 0x8 x y 0x3
  | .addVxVy x y => nibbles 0x8 x y 0x4
  | .sub x y => nibbles 0x8 x y 0x5
  | .shr x y => nibbles 0x8 x y 0x6
  | .subn x y => nibbles 0x8 x y 0x7
  | .shl x y => nibbles 0x8 x y 0xE
  | .sneVxVy x y => nibbles 0x9 x y 0x0
  | .ldINnn nnn => wordA 0xA nnn
  | .jpV0 nnn => wordA 0xB nnn
  | .rnd x nn => wordXI 0xC x nn
  | .drw x y n => nibbles 0xD x y n
  | .skp x => wordXI 0xE x 0x9E
  | .sknp x => wordXI 0xE x 0xA1
  | .ldVxDt x => wordXI 0xF x 0x07
  | .ldVxK x => wordXI 0xF x 0x0A
  | .ldDtVx x => wordXI 0xF x 0x15
  | .ldStVx x => wordXI 0xF x 0x18
  | .addIVx x => wordXI 0xF x 0x1E
  | .ldFVx x => wordXI 0xF x 0x29
  | .ldBVx x => wordXI 0xF x 0x33
  | .ldMemVx x => wordXI 0xF x 0x55
  | .ldVxMem x => wordXI 0xF x 0x65

/-- The two bytes of a word in address order, high byte first (R43, R64). -/
def bytesOfWord (op : Word) : List Byte := [op.extractLsb' 8 8, op.extractLsb' 0 8]

/-- The bytes of an instruction in memory order. -/
def encodeBytes (i : Instr) : List Byte := bytesOfWord (encode i)

/-! ## The opcode table (R75) -/

/-- One row of the table of R75: `op` is the instruction exactly when `op AND mask = pattern`. -/
structure OpRow where
  mask : Word
  pattern : Word
  deriving DecidableEq, Repr

/-- "a word `op` is the instruction exactly when `op AND mask == match`" (R75). -/
def OpRow.hits (r : OpRow) (op : Word) : Bool := op &&& r.mask = r.pattern

/-- The row of each instruction: the mask and match columns of R75. -/
def Instr.row (i : Instr) : OpRow :=
  match i with
  | .cls => ⟨0xFFFF, 0x00E0⟩
  | .ret => ⟨0xFFFF, 0x00EE⟩
  | .jp _ => ⟨0xF000, 0x1000⟩
  | .call _ => ⟨0xF000, 0x2000⟩
  | .seVxNn _ _ => ⟨0xF000, 0x3000⟩
  | .sneVxNn _ _ => ⟨0xF000, 0x4000⟩
  | .seVxVy _ _ => ⟨0xF00F, 0x5000⟩
  | .ldVxNn _ _ => ⟨0xF000, 0x6000⟩
  | .addVxNn _ _ => ⟨0xF000, 0x7000⟩
  | .ldVxVy _ _ => ⟨0xF00F, 0x8000⟩
  | .or _ _ => ⟨0xF00F, 0x8001⟩
  | .and _ _ => ⟨0xF00F, 0x8002⟩
  | .xor _ _ => ⟨0xF00F, 0x8003⟩
  | .addVxVy _ _ => ⟨0xF00F, 0x8004⟩
  | .sub _ _ => ⟨0xF00F, 0x8005⟩
  | .shr _ _ => ⟨0xF00F, 0x8006⟩
  | .subn _ _ => ⟨0xF00F, 0x8007⟩
  | .shl _ _ => ⟨0xF00F, 0x800E⟩
  | .sneVxVy _ _ => ⟨0xF00F, 0x9000⟩
  | .ldINnn _ => ⟨0xF000, 0xA000⟩
  | .jpV0 _ => ⟨0xF000, 0xB000⟩
  | .rnd _ _ => ⟨0xF000, 0xC000⟩
  | .drw _ _ _ => ⟨0xF000, 0xD000⟩
  | .skp _ => ⟨0xF0FF, 0xE09E⟩
  | .sknp _ => ⟨0xF0FF, 0xE0A1⟩
  | .ldVxDt _ => ⟨0xF0FF, 0xF007⟩
  | .ldVxK _ => ⟨0xF0FF, 0xF00A⟩
  | .ldDtVx _ => ⟨0xF0FF, 0xF015⟩
  | .ldStVx _ => ⟨0xF0FF, 0xF018⟩
  | .addIVx _ => ⟨0xF0FF, 0xF01E⟩
  | .ldFVx _ => ⟨0xF0FF, 0xF029⟩
  | .ldBVx _ => ⟨0xF0FF, 0xF033⟩
  | .ldMemVx _ => ⟨0xF0FF, 0xF055⟩
  | .ldVxMem _ => ⟨0xF0FF, 0xF065⟩

/-! ## The host's question -/

/-- What the decoder reads from the instruction whose table bits are `w` (bit 0 the least significant
bit of the one 16-bit word; bits at `nbits` and above are 0): laid out in memory order, then decoded. -/
def decodeTableWord (nbits w : Nat) : Option Instr :=
  match decodeBytes (bytesOfWord (BitVec.ofNat 16 (w % 2 ^ nbits))) with
  | .ok (i, _) => some i
  | .error _ => none

end Sys2Proof
end

