-- ==== Sys2Proof/Config.lean ====
section
/-! DEFINITION. The fixed sizes of the hardware (`00_scope.md` R6) and the one free value of the
model, the random byte. The two parameters of R6 that the source does not fix, `FONT` and
`STACK_DEPTH`, stand in Machine/Params.lean under the same namespace. -/

namespace Sys2Proof.Config

/-- `MEM_SIZE`: addresses 0 to 4095 are backed by cells (R6, R38). -/
def memSize : Nat := 4096

/-- `PROG_BASE`: where `LOAD` puts the program's first byte (R6, R50). -/
def progBase : Nat := 0x200

/-- `PC_RESET`, the entry point (R6, R19, R161). -/
def pcReset : Word := 0x200#16

/-- `DISPLAY_W` (R6, R28). -/
def displayW : Nat := 64

/-- `DISPLAY_H` (R6, R28). -/
def displayH : Nat := 32

/-- `NKEYS` (R6, R29). -/
def nKeys : Nat := 16

/-- `INSN_BYTES` as an increment of `PC` (R6, R63, R81). -/
def insnBytes : Word := 2#16

/-- The `k`-th random byte that no host supplied: a free value, "any value 0..255 on each execution,
with no relation between draws" (R109, R153). It has no body, so nothing can be proved of its values.
DESIGN CHOICE, log 2; safe. -/
opaque rndByte : Nat → Byte

end Sys2Proof.Config
end

