-- ==== Sys2Proof/Machine/Params.lean ====
section
/-! DEFINITION. The two parameters of `00_scope.md` R6 that the source does not fix: `FONT` and
`STACK_DEPTH`. They stand beside the machine's definitions because a test could show them wrong. -/

namespace Sys2Proof.Config

/-- `STACK_DEPTH` = 16 entries (R6, R23; decision D2 of the spec; DESIGN CHOICE, log 3; safe). -/
def stackDepth : Nat := 16

/-- `GLYPH_STRIDE`: bytes per glyph (R6, R47, R112). -/
def glyphStride : Nat := 5

/-- Glyphs 0 to 3 of the table of R48. -/
def font0 : List Byte :=
  [0xF0, 0x90, 0x90, 0x90, 0xF0] ++ [0x20, 0x60, 0x20, 0x20, 0x70] ++
  [0xF0, 0x10, 0xF0, 0x80, 0xF0] ++ [0xF0, 0x10, 0xF0, 0x10, 0xF0]

/-- Glyphs 4 to 7. -/
def font4 : List Byte :=
  [0x90, 0x90, 0xF0, 0x10, 0x10] ++ [0xF0, 0x80, 0xF0, 0x10, 0xF0] ++
  [0xF0, 0x80, 0xF0, 0x90, 0xF0] ++ [0xF0, 0x10, 0x20, 0x40, 0x40]

/-- Glyphs 8 to B. -/
def font8 : List Byte :=
  [0xF0, 0x90, 0xF0, 0x90, 0xF0] ++ [0xF0, 0x90, 0xF0, 0x10, 0xF0] ++
  [0xF0, 0x90, 0xF0, 0x90, 0x90] ++ [0xE0, 0x90, 0xE0, 0x90, 0xE0]

/-- Glyphs C to F. -/
def fontC : List Byte :=
  [0xF0, 0x80, 0x80, 0x80, 0xF0] ++ [0xE0, 0x90, 0x90, 0x90, 0xE0] ++
  [0xF0, 0x80, 0xF0, 0x80, 0xF0] ++ [0xF0, 0x80, 0xF0, 0x80, 0x80]

/-- `FONT`: 80 bytes, glyph `k` at addresses `5k` to `5k+4`, top row first (R47). The bytes are the
spec's default table (R48), "from general knowledge, not in source" (PRESUMED, log 1; unsafe for a
claim that depends on glyph bits). -/
def font : List Byte := font0 ++ font4 ++ font8 ++ fontC

end Sys2Proof.Config
end

