-- ==== Sys2Proof/Machine/State.lean ====
section
/-! DEFINITION. The whole state of the block (`10_state.md`), as plain data, its reset value, and the
reasons a step can stop. -/

namespace Sys2Proof.Machine

/-- `FAULT_CAUSE` (R30, R137): the three causes. -/
inductive FaultCause where
  /-- code 0: no fault has been raised since the last reset -/
  | none
  /-- code 1: the word fetched is no instruction (R134) -/
  | invalidOpcode
  /-- code 2: a call with 16 return addresses on the stack (R135) -/
  | stackOverflow
  deriving DecidableEq, Repr

/-- `MEM` (R27, R38): cells whose content differs from what an unlisted address reads as, in rising
address order (`Memory.wf`, Machine/Ops.lean). -/
abbrev Memory := List Host.Cell

/-- `FB` (R28): 32 rows of 64 pixels; `fb[y][x]` is `FB[y][x]`. -/
abbrev Frame := Vector (Vector Bool 64) 32

/-- All state of the block, R31 and the list that opens `10_state.md`, and the model's own two fields
for the input `rnd` of `STEP(rnd)` (log 2). -/
structure State where
  /-- `V[0]` .. `V[15]` (R15) -/
  v : Vector Byte 16
  /-- `I` (R18) -/
  i : Word
  /-- `PC` (R19) -/
  pc : Word
  /-- `STACK[0]` .. `STACK[SP-1]`, oldest first; `SP` is its length (R23, R24) -/
  stack : List Word
  /-- `DT` (R25) -/
  dt : Byte
  /-- `ST` (R25) -/
  st : Byte
  /-- `MEM` (R27) -/
  mem : Memory
  /-- `FB` (R28) -/
  fb : Frame
  /-- `KEYS`; true is "down" (R29) -/
  keys : Vector Bool 16
  /-- `HALTED` (R30) -/
  halted : Bool
  /-- `FAULT_CAUSE` (R30) -/
  faultCause : FaultCause
  /-- `FAULT_OPCODE` (R30) -/
  faultOpcode : Word
  /-- `FAULT_PC` (R30) -/
  faultPc : Word
  /-- the model's own: random bytes the host has supplied for the draws to come, oldest first (log 2) -/
  rndSupply : List Byte
  /-- the model's own: how many bytes were drawn from `Config.rndByte` (log 2) -/
  rndDraws : Nat
  deriving DecidableEq, Repr

/-- The machine right after reset: every value of the table of R35. Memory lists nothing, so every cell
reads as its reset content. The last two fields are the model's own (DESIGN CHOICE, log 2; no
statement rests on them). -/
def State.reset : State where
  v := Vector.replicate 16 0
  i := 0
  pc := Config.pcReset
  stack := []
  dt := 0
  st := 0
  mem := []
  fb := Vector.replicate 32 (Vector.replicate 64 false)
  keys := Vector.replicate 16 false
  halted := false
  faultCause := .none
  faultOpcode := 0
  faultPc := 0
  rndSupply := []
  rndDraws := 0

/-- Why a step stops. The two faults of the hardware are no reasons to stop here: their entry is a next
state (R139, log 4). -/
inductive Fault where
  /-- Raised by `step` alone, on a halted machine: "`STEP` changes no state, fetches nothing and returns
  the recorded fault again" (R82). It carries the report `(FAULT_CAUSE, FAULT_OPCODE, FAULT_PC)`. Safe:
  nothing more can be proved of a run past it (log 4). -/
  | halted (cause : FaultCause) (opcode pc : Word)
  deriving DecidableEq, Repr

/-- Why an instruction has no meaning. -/
inductive Refusal where
  /-- Raised by an arm of `exec` whose instruction has no meaning yet; safe. No arm raises it now. -/
  | notModelled (mnemonic : String)
  deriving DecidableEq, Repr

/-- The outcome of a meaning or of a step. -/
abbrev Result := Host.Outcome State Fault Refusal

end Sys2Proof.Machine
end

