-- ==== Sys2Proof/Machine/Ops.lean ====
section
/-! DEFINITION. The named operations over memory, registers, stack, framebuffer, keys and `PC`; the
fetch; and the one shared operation that takes a fault. Every meaning is written over these. -/

namespace Sys2Proof.Machine

/-! ## Memory (`20_memory.md`) -/

/-- What a cell holds that nothing has written since reset: the font byte at 0x000 to 0x04F (R47), zero
elsewhere (R35, R54). -/
def Memory.unlisted (a : Nat) : Byte := Config.font.getD a 0

/-- The content of the cell at `a`. -/
def Memory.cell (m : Memory) (a : Nat) : Byte :=
  match m with
  | [] => Memory.unlisted a
  | (k, b) :: rest => if k = a then b else Memory.cell rest a

/-- The list without a cell at `a`. -/
def Memory.drop (m : Memory) (a : Nat) : Memory := m.filter (fun c => c.1 ≠ a)

/-- The list with the cell `(a, b)` put before the first cell of a higher address. -/
def Memory.insert (m : Memory) (a : Nat) (b : Byte) : Memory :=
  match m with
  | [] => [(a, b)]
  | (k, c) :: rest => if a < k then (a, b) :: (k, c) :: rest else (k, c) :: Memory.insert rest a b

/-- The memory whose cell at `a` holds `b`, in the canonical form: a cell that holds what an unlisted
address reads as is not listed (log 15). -/
def Memory.put (m : Memory) (a : Nat) (b : Byte) : Memory :=
  if b = Memory.unlisted a then m.drop a else (m.drop a).insert a b

/-- The canonical form: addresses strictly rising, all backed by cells (R39), no cell equal to what an
unlisted address reads as. -/
abbrev Memory.wf (m : Memory) : Prop :=
  m.Pairwise (fun c d => c.1 < d.1) ∧ ∀ c ∈ m, c.1 < Config.memSize ∧ c.2 ≠ Memory.unlisted c.1

/-- `MemRead(addr, 1)` (R40): 0 where no cell is. -/
def Memory.read (m : Memory) (addr : Word) : Byte :=
  if addr.toNat < Config.memSize then m.cell addr.toNat else 0

/-- `MemWrite(addr, 1, b)` (R41): dropped where no cell is. -/
def Memory.write (m : Memory) (addr : Word) (b : Byte) : Memory :=
  if addr.toNat < Config.memSize then m.put addr.toNat b else m

/-- `load_program(bytes)` from address `a` on (R50): a byte that would land at 4096 or beyond is dropped
without any report (log 12). -/
def Memory.load (m : Memory) (a : Nat) (bytes : List Byte) : Memory :=
  match bytes with
  | [] => m
  | b :: rest => Memory.load (if a < Config.memSize then m.put a b else m) (a + 1) rest

/-! ## General registers (`10_state.md` R15, R16) -/

/-- VF, the flag register (R16). -/
def VF : Reg := 15

/-- `V[x]`. -/
def State.getV (s : State) (x : Reg) : Byte := s.v[x]

/-- `V[x] <- b`. -/
def State.setV (s : State) (x : Reg) (b : Byte) : State := { s with v := s.v.set x b }

/-- The 16 register numbers (also the 16 key numbers), rising. -/
def allRegs : List Reg := [0, 1, 2, 3, 4, 5, 6, 7, 8, 9, 10, 11, 12, 13, 14, 15]

/-- The registers V0 to Vx inclusive, rising: the `for k in 0 .. x` of Fx55 and Fx65 (R114, R115). -/
def regsUpTo (x : Reg) : List Reg := allRegs.filter (fun k => k ≤ x)

/-! ## The other registers -/

/-- `I <- w`. -/
def State.setI (s : State) (w : Word) : State := { s with i := w }

/-- `PC <- w`. -/
def State.setPc (s : State) (w : Word) : State := { s with pc := w }

/-- `DT <- b`. -/
def State.setDt (s : State) (b : Byte) : State := { s with dt := b }

/-- `ST <- b`. -/
def State.setSt (s : State) (b : Byte) : State := { s with st := b }

/-- `MEM <- m`. -/
def State.setMem (s : State) (m : Memory) : State := { s with mem := m }

/-- `FB <- f`. -/
def State.setFb (s : State) (f : Frame) : State := { s with fb := f }

/-! ## Call stack (R23, R24) -/

/-- `SP`, the number of entries. -/
def State.sp (s : State) : Nat := s.stack.length

/-- `Push(w)`; the caller tests that `SP < 16`. -/
def State.push (s : State) (w : Word) : State := { s with stack := s.stack ++ [w] }

/-- `Pop()`: the newest entry and the state without it, or `none` when the stack is empty. -/
def State.pop? (s : State) : Option (Word × State) :=
  match s.stack.getLast? with
  | some w => some (w, { s with stack := s.stack.dropLast })
  | none => none

/-! ## Framebuffer (`43_display.md` R118, R119) -/

/-- The cleared framebuffer: all 2048 pixels 0 (R120). -/
def Frame.blank : Frame := Vector.replicate 32 (Vector.replicate 64 false)

/-- `GetPixel(x, y)` for any integers: false outside the screen (R118). -/
def Frame.getPixel (f : Frame) (x y : Int) : Bool :=
  if h : (0 ≤ x ∧ x < 64) ∧ (0 ≤ y ∧ y < 32) then
    (f[y.toNat]'(by omega))[x.toNat]'(by omega)
  else false

/-- `TogglePixel(x, y)` for any integers: nothing outside the screen (R119). -/
def Frame.togglePixel (f : Frame) (x y : Int) : Frame :=
  if h : (0 ≤ x ∧ x < 64) ∧ (0 ≤ y ∧ y < 32) then
    f.set y.toNat ((f[y.toNat]'(by omega)).set x.toNat (!f.getPixel x y) (by omega)) (by omega)
  else f

/-! ## Keys (`44_keypad_and_timers.md` R125, R126; `60_exceptions.md` R150) -/

/-- `IsDown(k)` for any integer: a key that does not exist is up (R125). -/
def State.isDown (s : State) (k : Int) : Bool :=
  if h : 0 ≤ k ∧ k ≤ 15 then s.keys[k.toNat]'(by omega) else false

/-- `FirstDown()`: the lowest key that is down (R126). -/
def State.firstDown (s : State) : Option Reg := allRegs.find? (fun k => s.keys[k])

/-- `KEYS[key] <- down`; a key outside 0 to 15 changes nothing (R150, log 10). -/
def State.keySet (s : State) (key : Int) (down : Bool) : State :=
  if h : 0 ≤ key ∧ key ≤ 15 then { s with keys := s.keys.set key.toNat down (by omega) } else s

/-! ## Program counter and fetch (`40_step_and_control_flow.md` R81, R83) -/

/-- `PC <- (PC + 2) mod 65536`: the advance of the fetch (R81), and once more the skip (R83). -/
def State.advancePc (s : State) : State := s.setPc (s.pc + Config.insnBytes)

/-- "Skip next instruction" where the condition holds (R83). -/
def State.skipIf (s : State) (c : Bool) : State := if c then s.advancePc else s

/-- The instruction word at `PC`: the bytes at `PC` and `(PC + 1) mod 65536`, the first one high (R42,
R43, R64, R81). -/
def State.fetchWord (s : State) : Word := wordOfBytes (s.mem.read s.pc) (s.mem.read (s.pc + 1))

/-! ## Random byte (R109, R153) -/

/-- The byte the next draw answers: the oldest byte the host has supplied, or, where it has supplied
none, a free value (log 2). -/
def State.rndNext (s : State) : Byte :=
  match s.rndSupply with
  | b :: _ => b
  | [] => Config.rndByte s.rndDraws

/-- The state after a draw: the supplied byte is used up, or the next free value is a new one. -/
def State.rndUsed (s : State) : State :=
  match s.rndSupply with
  | _ :: rest => { s with rndSupply := rest }
  | [] => { s with rndDraws := s.rndDraws + 1 }

/-! ## Faults (`60_exceptions.md` R133 to R143) -/

/-- The numbers of R137. -/
def FaultCause.code (c : FaultCause) : BitVec 2 :=
  match c with
  | .none => 0
  | .invalidOpcode => 1
  | .stackOverflow => 2

/-- Fault entry, `raise F(op, pc0)` (R139): the report is recorded and `HALTED` set; nothing else is
saved or changed. There is no return from a fault (R142): only `RESET` and `LOAD` clear `HALTED`
(Machine/HostOps.lean). -/
def State.raiseFault (s : State) (cause : FaultCause) (op pc0 : Word) : State :=
  { s with halted := true, faultCause := cause, faultOpcode := op, faultPc := pc0 }

/-- The address an executing instruction was fetched from: `PC` holds `pc0 + 2` (R19; log 14). -/
def State.pc0 (s : State) : Word := s.pc - Config.insnBytes

end Sys2Proof.Machine
end

