-- ==== Sys2Proof/Machine/Operands.lean ====
section
/-! DEFINITION. The operand forms of the instruction set: zero-extended immediates and registers
(`30_encoding.md` R68), the one data addressing mode (`42_index_and_memory.md` R117), the glyph
address and the decimal digits (R112, R113). -/

namespace Sys2Proof.Machine

/-- `zext_16(nnn)` (R68). -/
def zextAddr (nnn : Addr12) : Word := nnn.setWidth 16

/-- `zext_16(V[x])` (R91, R111, R112). -/
def zextByte (b : Byte) : Word := b.setWidth 16

/-- The effective address of byte `k` of an access based at `I`: `(I + k) mod 65536` (R42, R117). -/
def effAddr (i : Word) (k : Nat) : Word := i + BitVec.ofNat 16 k

/-- `I + x + 1`, the post-increment of Fx55 and Fx65 (R114 to R116). -/
def afterBlock (i : Word) (x : Reg) : Word := i + BitVec.ofNat 16 (x.val + 1)

/-- `zext_16(V[x]) * 5`, the base address of a font glyph (R112). -/
def glyphAddr (b : Byte) : Word := zextByte b * BitVec.ofNat 16 Config.glyphStride

/-- The hundreds digit (R113). -/
def hundreds (b : Byte) : Byte := BitVec.ofNat 8 (b.toNat / 100)

/-- The tens digit (R113). -/
def tens (b : Byte) : Byte := BitVec.ofNat 8 (b.toNat / 10 % 10)

/-- The ones digit (R113). -/
def ones (b : Byte) : Byte := BitVec.ofNat 8 (b.toNat % 10)

/-- A register value as a key number or a coordinate: the whole byte as an integer (R121, R125). -/
def asInt (b : Byte) : Int := b.toNat

end Sys2Proof.Machine
end

