-- ==== Sys2Proof/Machine/Flags.lean ====
section
/-! DEFINITION. The flag computations (`41_register_alu.md` R94, R107), all on the values before the
instruction, and the order of the two writes (R95). -/

namespace Sys2Proof.Machine

/-- A flag as VF holds it: 1 or 0. -/
def flagByte (c : Bool) : Byte := if c then 1 else 0

/-- Carry out of 8xy4: 1 if the sum exceeds 255 (R102). -/
def carryFlag (a b : Byte) : Byte := flagByte (a.toNat + b.toNat > 255)

/-- No borrow in `a - b`: 1 if `a >= b` (R103; R105 with the operands exchanged). -/
def noBorrowFlag (a b : Byte) : Byte := flagByte (a.toNat ≥ b.toNat)

/-- The bit shifted out at the low end (R104). -/
def lowBitFlag (a : Byte) : Byte := flagByte (a.getLsbD 0)

/-- The bit shifted out at the high end (R106). -/
def highBitFlag (a : Byte) : Byte := flagByte (a.getLsbD 7)

/-- The result is written to `V[x]`, then the flag to VF: "The flag write is last and wins" (R95;
decision D9 of the spec, log 7). -/
def State.setResultThenFlag (s : State) (x : Reg) (result flag : Byte) : State :=
  (s.setV x result).setV VF flag

end Sys2Proof.Machine
end

