-- ==== Sys2Proof/Machine/Alu.lean ====
section
/-! DEFINITION. The register load, arithmetic, logic, shift and random instructions
(`41_register_alu.md` R94 to R109). -/

namespace Sys2Proof.Machine

/-- 6xnn `LD Vx, nn` (R96). -/
def execLdVxNn (x : Reg) (nn : Byte) (s : State) : Result := .next (s.setV x nn)

/-- 7xnn `ADD Vx, nn` (R97): "no flag register touched". -/
def execAddVxNn (x : Reg) (nn : Byte) (s : State) : Result := .next (s.setV x (s.getV x + nn))

/-- 8xy0 `LD Vx, Vy` (R98). -/
def execLdVxVy (x y : Reg) (s : State) : Result := .next (s.setV x (s.getV y))

/-- 8xy1 `OR Vx, Vy` (R99): VF is set to 0. -/
def execOr (x y : Reg) (s : State) : Result :=
  .next (s.setResultThenFlag x (s.getV x ||| s.getV y) 0)

/-- 8xy2 `AND Vx, Vy` (R100): VF is set to 0. -/
def execAnd (x y : Reg) (s : State) : Result :=
  .next (s.setResultThenFlag x (s.getV x &&& s.getV y) 0)

/-- 8xy3 `XOR Vx, Vy` (R101): VF is set to 0. -/
def execXor (x y : Reg) (s : State) : Result :=
  .next (s.setResultThenFlag x (s.getV x ^^^ s.getV y) 0)

/-- 8xy4 `ADD Vx, Vy` (R102). -/
def execAddVxVy (x y : Reg) (s : State) : Result :=
  .next (s.setResultThenFlag x (s.getV x + s.getV y) (carryFlag (s.getV x) (s.getV y)))

/-- 8xy5 `SUB Vx, Vy` (R103). -/
def execSub (x y : Reg) (s : State) : Result :=
  .next (s.setResultThenFlag x (s.getV x - s.getV y) (noBorrowFlag (s.getV x) (s.getV y)))

/-- 8xy6 `SHR Vx` (R104): the register `y` names is neither read nor written. -/
def execShr (x _y : Reg) (s : State) : Result :=
  .next (s.setResultThenFlag x (s.getV x >>> 1) (lowBitFlag (s.getV x)))

/-- 8xy7 `SUBN Vx, Vy` (R105). -/
def execSubn (x y : Reg) (s : State) : Result :=
  .next (s.setResultThenFlag x (s.getV y - s.getV x) (noBorrowFlag (s.getV y) (s.getV x)))

/-- 8xyE `SHL Vx` (R106): the register `y` names is neither read nor written. -/
def execShl (x _y : Reg) (s : State) : Result :=
  .next (s.setResultThenFlag x (s.getV x <<< 1) (highBitFlag (s.getV x)))

/-- Cxnn `RND Vx, nn` (R109): the random byte is an input of `STEP`, a free value (log 2). -/
def execRnd (x : Reg) (nn : Byte) (s : State) : Result :=
  .next (s.rndUsed.setV x (s.rndNext &&& nn))

end Sys2Proof.Machine
end

