-- ==== Sys2Proof/Machine/Control.lean ====
section
/-! DEFINITION. The control-transfer instructions (`40_step_and_control_flow.md` R84 to R93). `PC`
already holds the post-fetch value `pc0 + 2`. -/

namespace Sys2Proof.Machine

/-- 00EE `RET` (R84): an empty stack leaves `PC` at `pc0 + 2` (decision D11 of the spec, log 8). -/
def execRet (s : State) : Result :=
  match s.pop? with
  | some (w, s') => .next (s'.setPc w)
  | none => .next s

/-- 1nnn `JP nnn` (R85). -/
def execJp (nnn : Addr12) (s : State) : Result := .next (s.setPc (zextAddr nnn))

/-- 2nnn `CALL nnn` (R86); with no room on the stack it takes the fault StackOverflow (R135, R139;
decision D2 of the spec, log 3), whose report is this instruction's word and address (log 14). -/
def execCall (nnn : Addr12) (s : State) : Result :=
  if s.sp < Config.stackDepth then .next ((s.push s.pc).setPc (zextAddr nnn))
  else .next (s.raiseFault .stackOverflow (encode (.call nnn)) s.pc0)

/-- 3xnn `SE Vx, nn` (R87). -/
def execSeVxNn (x : Reg) (nn : Byte) (s : State) : Result := .next (s.skipIf (s.getV x == nn))

/-- 4xnn `SNE Vx, nn` (R88). -/
def execSneVxNn (x : Reg) (nn : Byte) (s : State) : Result := .next (s.skipIf (s.getV x != nn))

/-- 5xy0 `SE Vx, Vy` (R89). -/
def execSeVxVy (x y : Reg) (s : State) : Result := .next (s.skipIf (s.getV x == s.getV y))

/-- 9xy0 `SNE Vx, Vy` (R90). -/
def execSneVxVy (x y : Reg) (s : State) : Result := .next (s.skipIf (s.getV x != s.getV y))

/-- Bnnn `JP V0, nnn` (R91): the sum is not reduced to 12 bits. -/
def execJpV0 (nnn : Addr12) (s : State) : Result :=
  .next (s.setPc (zextAddr nnn + zextByte (s.getV 0)))

end Sys2Proof.Machine
end

