-- ==== Sys2Proof/Machine/Display.lean ====
section
/-! DEFINITION. The display instructions and the XOR-toggle engine (`43_display.md` R120 to R124). -/

namespace Sys2Proof.Machine

/-- 00E0 `CLS` (R120). -/
def execCls (s : State) : Result := .next (s.setFb Frame.blank)

/-- What a sprite blit has reached: the framebuffer, and whether a set pixel was toggled off. -/
structure Blit where
  frame : Frame
  hit : Bool
  deriving DecidableEq, Repr

/-- One sprite pixel whose bit is 1, at `(px, py)`: collision test, then toggle; dropped off screen
(R121). -/
def Blit.plot (d : Blit) (px py : Int) : Blit :=
  if (0 ≤ px ∧ px < 64) ∧ (0 ≤ py ∧ py < 32) then
    { frame := d.frame.togglePixel px py, hit := d.hit || d.frame.getPixel px py }
  else d

/-- The eight columns of one sprite row, left first; bit 7 is the leftmost pixel (R121, R123). -/
def Blit.row (d : Blit) (b : Byte) (px py : Int) : Blit :=
  (List.range 8).foldl (fun d c => if b.getLsbD (7 - c) then d.plot (px + c) py else d) d

/-- The `n` sprite rows, top first, row `r` read from `(I + r) mod 65536` (R121). -/
def drawSprite (m : Memory) (i : Word) (px py : Int) (n : Nat) (f : Frame) : Blit :=
  (List.range n).foldl (fun d r => d.row (m.read (effAddr i r)) px (py + r)) { frame := f, hit := false }

/-- Dxyn `DRW Vx, Vy, n` (R121): the position is taken from `V[x]` and `V[y]` before VF is written
(decision D10 of the spec, log 7); VF ends as the collision flag. -/
def execDrw (x y : Reg) (n : Fin 16) (s : State) : Result :=
  let d := drawSprite s.mem s.i (asInt (s.getV x)) (asInt (s.getV y)) n.val s.fb
  .next ((s.setFb d.frame).setV VF (flagByte d.hit))

end Sys2Proof.Machine
end

