-- ==== Sys2Proof/Machine/IndexMem.lean ====
section
/-! DEFINITION. The index-register and memory-transfer instructions (`42_index_and_memory.md` R110 to
R117). Each byte of a store is written or dropped on its own; no access faults. -/

namespace Sys2Proof.Machine

/-- Annn `LD I, nnn` (R110). -/
def execLdINnn (nnn : Addr12) (s : State) : Result := .next (s.setI (zextAddr nnn))

/-- Fx1E `ADD I, Vx` (R111): modulo 65536, silently (R116; log 5). -/
def execAddIVx (x : Reg) (s : State) : Result := .next (s.setI (s.i + zextByte (s.getV x)))

/-- Fx29 `LD F, Vx` (R112): the whole byte times 5. -/
def execLdFVx (x : Reg) (s : State) : Result := .next (s.setI (glyphAddr (s.getV x)))

/-- `MEM` after the three digits of `b` are stored at `i`, `i + 1`, `i + 2` (R113). -/
def storeDigits (m : Memory) (i : Word) (b : Byte) : Memory :=
  ((m.write (effAddr i 0) (hundreds b)).write (effAddr i 1) (tens b)).write (effAddr i 2) (ones b)

/-- Fx33 `LD B, Vx` (R113). -/
def execLdBVx (x : Reg) (s : State) : Result := .next (s.setMem (storeDigits s.mem s.i (s.getV x)))

/-- `MEM` after the listed registers are stored, register `k` at `I + k`, in the list's order (R114). -/
def storeRegs (s : State) (ks : List Reg) : Memory :=
  ks.foldl (fun m k => m.write (effAddr s.i k.val) (s.getV k)) s.mem

/-- Fx55 `LD [I], Vx` (R114): `I` is advanced after the stores. -/
def execLdMemVx (x : Reg) (s : State) : Result :=
  .next ((s.setMem (storeRegs s (regsUpTo x))).setI (afterBlock s.i x))

/-- The state after the listed registers are loaded, register `k` from `I + k`, in the list's order
(R115). -/
def loadRegs (s : State) (ks : List Reg) : State :=
  ks.foldl (fun t k => t.setV k (s.mem.read (effAddr s.i k.val))) s

/-- Fx65 `LD Vx, [I]` (R115): `I` is advanced after the loads. -/
def execLdVxMem (x : Reg) (s : State) : Result :=
  .next ((loadRegs s (regsUpTo x)).setI (afterBlock s.i x))

end Sys2Proof.Machine
end

