-- ==== Sys2Proof/Machine/KeyTimer.lean ====
section
/-! DEFINITION. The keypad and timer instructions (`44_keypad_and_timers.md` R125 to R132). -/

namespace Sys2Proof.Machine

/-- Ex9E `SKP Vx` (R128). -/
def execSkp (x : Reg) (s : State) : Result := .next (s.skipIf (s.isDown (asInt (s.getV x))))

/-- ExA1 `SKNP Vx` (R129). -/
def execSknp (x : Reg) (s : State) : Result := .next (s.skipIf (!s.isDown (asInt (s.getV x))))

/-- Fx07 `LD Vx, DT` (R130). -/
def execLdVxDt (x : Reg) (s : State) : Result := .next (s.setV x s.dt)

/-- Fx0A `LD Vx, K` (R127): with no key down `PC` goes back to this instruction's own address and
nothing else changes; else the lowest key down is loaded. -/
def execLdVxK (x : Reg) (s : State) : Result :=
  match s.firstDown with
  | some k => .next (s.setV x (BitVec.ofNat 8 k.val))
  | none => .next (s.setPc s.pc0)

/-- Fx15 `LD DT, Vx` (R131). -/
def execLdDtVx (x : Reg) (s : State) : Result := .next (s.setDt (s.getV x))

/-- Fx18 `LD ST, Vx` (R132). -/
def execLdStVx (x : Reg) (s : State) : Result := .next (s.setSt (s.getV x))

end Sys2Proof.Machine
end

