-- ==== Sys2Proof/Machine/Step.lean ====
section
/-! DEFINITION. The operation `STEP` (`40_step_and_control_flow.md` R81, R82) and the host's way to put
an instruction where the next step fetches it. -/

namespace Sys2Proof.Machine

/-- `STEP` (R81): on a halted machine the recorded fault again (R82, log 4); else fetch, advance `PC`,
decode, and execute exactly one instruction or take the fault InvalidOpcode (R134). The random byte of
`STEP(rnd)` is drawn only by Cxnn (log 2). -/
def step (s : State) : Result :=
  if s.halted then .fault (.halted s.faultCause s.faultOpcode s.faultPc)
  else
    match decode s.fetchWord with
    | .ok i => exec i s.advancePc
    | .error _ => .next (s.advancePc.raiseFault .invalidOpcode s.fetchWord s.pc)

/-- `s` with `PC` where both bytes of a word can be stored: unchanged if they can, else `PROG_BASE`
(log 13). -/
def State.fetchable (s : State) : State :=
  if s.pc.toNat + 1 < Config.memSize then s else s.setPc Config.pcReset

/-- `s` with the fault latch and its report at their reset values if it is halted, else `s` (log 13). -/
def State.unhalted (s : State) : State :=
  if s.halted then { s with halted := false, faultCause := .none, faultOpcode := 0, faultPc := 0 } else s

/-- `s` with the instruction of bits `w` (bit 0 the least significant of the 16-bit word, bits at `nbits`
and above 0) stored big-endian at `PC`, so that the next step fetches and runs exactly it (R64, R81;
log 13). Nothing but the two cells changes where the machine is not halted and `PC` is below 0xFFF. -/
def State.withFetchWord (s : State) (nbits w : Nat) : State :=
  let t := s.fetchable.unhalted
  t.setMem (t.mem.load t.pc.toNat (bytesOfWord (BitVec.ofNat 16 (w % 2 ^ nbits))))

end Sys2Proof.Machine
end

