-- ==== Sys2Proof/Machine/HostOps.lean ====
section
/-! DEFINITION. The eight operations of the host (`00_scope.md` R9): `RESET`, `LOAD`, `STEP(rnd)`,
`TICK`, `KEY_SET`, `GET_PIXEL`, `SOUND`, `FAULT_STATUS`, each atomic, in any order (R10; log 9). -/

namespace Sys2Proof.Machine

/-- `RESET` (R158): every piece of state at its reset value, from any state. The model's own fields keep
what they hold, so that draws after a reset are still free of the draws before it (log 17). -/
def State.doReset (s : State) : State :=
  { State.reset with rndSupply := s.rndSupply, rndDraws := s.rndDraws }

/-- `LOAD(bytes)` (R159): `RESET`, then the bytes from 0x200 on (R50). -/
def State.doLoad (s : State) (bytes : List Byte) : State :=
  s.doReset.setMem (s.doReset.mem.load Config.progBase bytes)

/-- One timer after a tick: a timer at 0 stays at 0 (R26, R146). -/
def tickTimer (b : Byte) : Byte := if b = 0 then 0 else b - 1

/-- `TICK` (R146): nothing while halted (R143, log 4). -/
def State.doTick (s : State) : State :=
  if s.halted then s else (s.setDt (tickTimer s.dt)).setSt (tickTimer s.st)

/-- `STEP(rnd)` (R81): one step whose random byte, if it draws one, is `rnd`; a `rnd` that is not drawn
is ignored (R109), and what the host had supplied before stays. -/
def stepWith (rnd : Byte) (s : State) : Result :=
  match step { s with rndSupply := [rnd] } with
  | .next t => .next { t with rndSupply := s.rndSupply }
  | .fault r => .fault r
  | .refused r => .refused r

/-- An operation of the host with its arguments (R9). -/
inductive HostOp where
  | reset
  | load (bytes : List Byte)
  | step (rnd : Byte)
  | tick
  | keySet (key : Int) (down : Bool)
  | getPixel (x y : Int)
  | sound
  | faultStatus
  deriving DecidableEq, Repr

/-- What an operation returns to the host. -/
inductive Reply where
  /-- the operation returns nothing -/
  | done
  /-- `Ok` of `STEP` (R81) -/
  | stepOk
  /-- `Fault(cause, opcode, pc)` of `STEP` (R81, R82, R139) -/
  | stepFault (cause : FaultCause) (opcode pc : Word)
  /-- a step the model has no meaning for; no operation gives it (`exec_next`, Laws/Ops.lean) -/
  | stepRefused
  /-- `GET_PIXEL` (R118) -/
  | pixel (on : Bool)
  /-- `SOUND` (R152) -/
  | sound (st : Byte)
  /-- `FAULT_STATUS` (R141) -/
  | status (halted : Bool) (cause : FaultCause) (opcode pc : Word)
  deriving DecidableEq, Repr

/-- `STEP(rnd)` with what it returns: a step that raises a fault returns the report it has just recorded
(R139), a step of a halted machine the report recorded before, changing no state (R82). -/
def performStep (rnd : Byte) (s : State) : State × Reply :=
  match stepWith rnd s with
  | .next t => (t, if t.halted then .stepFault t.faultCause t.faultOpcode t.faultPc else .stepOk)
  | .fault (.halted cause op pc) => (s, .stepFault cause op pc)
  | .refused _ => (s, .stepRefused)

/-- The state after an operation, and its reply. `GET_PIXEL`, `SOUND` and `FAULT_STATUS` change no state
(R118, R141, R152). -/
def perform (op : HostOp) (s : State) : State × Reply :=
  match op with
  | .reset => (s.doReset, .done)
  | .load bytes => (s.doLoad bytes, .done)
  | .step rnd => performStep rnd s
  | .tick => (s.doTick, .done)
  | .keySet key down => (s.keySet key down, .done)
  | .getPixel x y => (s, .pixel (s.fb.getPixel x y))
  | .sound => (s, .sound s.st)
  | .faultStatus => (s, .status s.halted s.faultCause s.faultOpcode s.faultPc)

/-- The state after a list of operations, first one first: a run under any interleaving (R10, R166). -/
def runOps (ops : List HostOp) (s : State) : State :=
  ops.foldl (fun t op => (perform op t).1) s

end Sys2Proof.Machine
end

