-- ==== Sys2Proof/Safety.lean ====
section
/-! DEFINITION. What counts as a safe run, and the invariant of the reachable states, in the terms the
claims use. -/

namespace Sys2Proof.Machine

/-- The machine has raised no fault since its last reset; "a halted state is a failed run" (R143). -/
def State.Running (s : State) : Prop := s.halted = false

/-- Each of the listed operations leaves the machine running: a run with no fault (R143, R172). -/
def SafeRun (ops : List HostOp) (s : State) : Prop :=
  ∀ k ≤ ops.length, (runOps (ops.take k) s).Running

/-- The conventional end of a program: a jump to itself stands at `PC` (R172; a convention, log 21). -/
def State.atSelfJump (s : State) : Prop :=
  s.Running ∧ ∃ nnn : Addr12, s.fetchWord = encode (.jp nnn) ∧ zextAddr nnn = s.pc

/-- The fault latch and its report agree: `HALTED = 1` exactly when a cause is recorded, and while
`HALTED = 0` the report is `(None, 0, 0)` (R37, R141). -/
def State.reportOk (s : State) : Prop :=
  (s.halted = true ↔ s.faultCause ≠ .none) ∧
  (s.halted = false → s.faultOpcode = 0 ∧ s.faultPc = 0)

/-- The bounds of `PC` on any run: at most 0x1100 (R21), and at most 0x10FE, the greatest target of
Bnnn, while the machine is not halted. -/
def State.pcOk (s : State) : Prop :=
  s.pc.toNat ≤ 0x1100 ∧ (s.halted = false → s.pc.toNat ≤ 0x10FE)

/-- The call stack: at most 16 entries (R23), each a post-fetch `PC` in 2 to 0x1001 (R37). -/
def State.stackOk (s : State) : Prop :=
  s.stack.length ≤ Config.stackDepth ∧ ∀ w ∈ s.stack, 2 ≤ w.toNat ∧ w.toNat ≤ 0x1001

/-- The invariant of the reachable states: R37, and the canonical form of memory (log 15). -/
structure State.Inv (s : State) : Prop where
  memory : s.mem.wf
  stack : s.stackOk
  report : s.reportOk
  pcBound : s.pcOk

/-- A state some list of host operations leads to from reset (R10, R36). -/
def State.Reachable (s : State) : Prop := ∃ ops : List HostOp, runOps ops State.reset = s

end Sys2Proof.Machine
end

