-- ==== Sys2Proof/Certificates/Slice0/Obligations.lean ====
section
/-! DEFINITION. The statements for the provers, taken from the numbered rules of spec/. Each says in the
spec's own arithmetic (integers, `mod`) what an instruction or an operation does, that it completes,
and what it leaves unchanged: `t = { s with v := t.v }` says that `t` differs from `s` at most in the
general registers, so every other register, every byte of memory, every pixel, key, timer and fault
register is as before. `exec` is given the state with the post-fetch `PC`, as the pseudocode of the
rules is (R19). -/

namespace Sys2Proof.Claims

/-- The word with primary opcode `p` and nibbles `x`, `y`, `n`, as a number (R65). -/
def word4 (p x y n : Nat) : Word := BitVec.ofNat 16 (0x1000 * p + 0x100 * x + 0x10 * y + n)

/-- The word with primary opcode `p`, register `x` and byte `nn`, as a number (R65). -/
def wordXNN (p x nn : Nat) : Word := BitVec.ofNat 16 (0x1000 * p + 0x100 * x + nn)

/-- The word with primary opcode `p` and address `nnn`, as a number (R65). -/
def wordNNN (p nnn : Nat) : Word := BitVec.ofNat 16 (0x1000 * p + nnn)

open Sys2Proof.Machine

/-- The sprite bit that Dxyn lays over pixel `(px, py)`: row `py - yp` of the `n` bytes at `I`, bit 7 the
leftmost of eight columns; false where the sprite does not reach (R121, R123). -/
def spriteBit (s : State) (xp yp n px py : Nat) : Bool :=
  decide (xp ≤ px ∧ px < xp + 8 ∧ yp ≤ py ∧ py < yp + n) &&
    (s.mem.read (effAddr s.i (py - yp))).getLsbD (7 - (px - xp))

/-- A pixel that the sprite toggles off: on the screen, set, and under a sprite bit of 1 (R121). -/
def Collides (s : State) (xp yp n : Nat) : Prop :=
  ∃ px py : Nat, px < 64 ∧ py < 32 ∧ spriteBit s xp yp n px py = true ∧ s.fb.getPixel px py = true

/-- The state after a fault entry by the instruction fetched from `pc0`: `PC` post-fetch, the report
recorded, the latch set, nothing else (R138, R139). -/
def faulted (s : State) (pc : Word) (cause : FaultCause) (op pc0 : Word) : State :=
  { s with pc := pc, halted := true, faultCause := cause, faultOpcode := op, faultPc := pc0 }

/-- `i` answers a next state in which VF is 0, `V[x]`, unless it is VF, is `f` of the old `V[x]` and `V[y]`
bit by bit, and nothing else has changed (R99 to R101). -/
def LogicResult (i : Instr) (x y : Reg) (f : Bool → Bool → Bool) (s : State) : Prop :=
  ∃ t, exec i s = .next t ∧ t.getV 15 = 0 ∧
    (x ≠ 15 → ∀ j < 8, (t.getV x).getLsbD j = f ((s.getV x).getLsbD j) ((s.getV y).getLsbD j)) ∧
    (∀ r, r ≠ x → r ≠ 15 → t.getV r = s.getV r) ∧ t = { s with v := t.v }

/-- The sprite has a 1 bit that lands on the screen (R122). -/
def InBoundsBit (s : State) (xp yp n : Nat) : Prop :=
  ∃ px py : Nat, px < 64 ∧ py < 32 ∧ spriteBit s xp yp n px py = true

end Sys2Proof.Claims

open Sys2Proof Sys2Proof.Machine Sys2Proof.Claims

/-! ## Encoding (`30_encoding.md`) -/

/-- Words written out from the patterns of R75, one for each family, decode to the instruction they stand
for; the source's own invalid word 0x5001 does not (R71). -/
def Obligations.SampleWordsDecode : Prop :=
  decode 0x00E0#16 = .ok .cls ∧ decode 0x00EE#16 = .ok .ret ∧
  decode 0x1234#16 = .ok (.jp 0x234#12) ∧ decode 0x3A2B#16 = .ok (.seVxNn 10 0x2B#8) ∧
  decode 0x8124#16 = .ok (.addVxVy 1 2) ∧ decode 0x8F0E#16 = .ok (.shl 15 0) ∧
  decode 0xA2F0#16 = .ok (.ldINnn 0x2F0#12) ∧ decode 0xC30F#16 = .ok (.rnd 3 0x0F#8) ∧
  decode 0xD125#16 = .ok (.drw 1 2 5) ∧ decode 0xE29E#16 = .ok (.skp 2) ∧
  decode 0xF30A#16 = .ok (.ldVxK 3) ∧ decode 0xF265#16 = .ok (.ldVxMem 2) ∧
  decode 0x5001#16 = .error .group5

/-- Decoding what the encoder writes gives the instruction back, with every operand at every value, and
leaves the bytes after it (R63 to R69, R75). -/
def Obligations.DecodeOfEncodeIsIdentity : Prop :=
  ∀ (i : Instr) (rest : List Byte), WellFormed i = true →
    decode (encode i) = .ok i ∧ decodeBytes (encodeBytes i ++ rest) = .ok (i, rest)

/-- Each valid word has one meaning and no bit of it is dropped: encoding what was decoded gives the word
back, the ignored `y` field of 8xy6 and 8xyE included (R67, R75). -/
def Obligations.EncodeOfDecodeIsIdentity : Prop :=
  ∀ (op : Word) (i : Instr), decode op = .ok i → encode i = op

/-- A word is an instruction of a row exactly when `op AND mask = match`, and no word matches two rows
(R75). -/
def Obligations.WordMatchesExactlyOneRow : Prop :=
  (∀ (op : Word) (i : Instr), i.row.hits op = true ↔ ∃ j, decode op = .ok j ∧ j.row = i.row) ∧
  (∀ (op : Word) (i j : Instr), i.row.hits op = true → j.row.hits op = true → i.row = j.row)

/-- The invalid words are exactly those R76 lists, a word that matches no row of the opcode table is
invalid, and fetching an invalid word raises InvalidOpcode. -/
def Obligations.InvalidWordsAreThoseListed : Prop :=
  (∀ op : Word, (∃ e, decode op = .error e) ↔
    ((op.toNat < 0x1000 ∧ op ≠ 0x00E0#16 ∧ op ≠ 0x00EE#16) ∨
     ((op.toNat / 0x1000 = 0x5 ∨ op.toNat / 0x1000 = 0x9) ∧ op.toNat % 0x10 ≠ 0) ∨
     (op.toNat / 0x1000 = 0x8 ∧ op.toNat % 0x10 ∈ [0x8, 0x9, 0xA, 0xB, 0xC, 0xD, 0xF]) ∨
     (op.toNat / 0x1000 = 0xE ∧ op.toNat % 0x100 ∉ [0x9E, 0xA1]) ∨
     (op.toNat / 0x1000 = 0xF ∧
       op.toNat % 0x100 ∉ [0x07, 0x0A, 0x15, 0x18, 0x1E, 0x29, 0x33, 0x55, 0x65]))) ∧
  (∀ op : Word, (∀ i : Instr, i.row.hits op = false) → ∃ e, decode op = .error e) ∧
  (∀ (s : State) (e : Invalid), s.halted = false → decode s.fetchWord = .error e →
    ∃ t, step s = .next t ∧ t.halted = true ∧ t.faultCause = .invalidOpcode)

/-! ## The step cycle (`40_step_and_control_flow.md`) -/

/-- A step fetches the two bytes at `PC` and `PC + 1`, high byte first, advances `PC` by 2 and runs the
decoded instruction; an invalid word raises InvalidOpcode; a halted machine returns the recorded fault
(R81, R134, R139; the halted clause, R82, is decision D4 of the spec, log 4, and the form of the report
decision D3, log 4). -/
def Obligations.StepRunsDecodedInstruction : Prop :=
  ∀ (s : State) (op : Word),
    op = BitVec.ofNat 16 (256 * (s.mem.read s.pc).toNat + (s.mem.read (s.pc + 1)).toNat) →
    (s.halted = false → ∀ i, WellFormed i = true → decode op = .ok i →
      step s = exec i { s with pc := s.pc + 2 }) ∧
    (s.halted = false → ∀ e, decode op = .error e →
      step s = .next (faulted s (s.pc + 2) .invalidOpcode op s.pc)) ∧
    (s.halted = true → step s = .fault (.halted s.faultCause s.faultOpcode s.faultPc))

/-- A `STEP` of a halted machine returns the recorded fault and changes no state, and so does the host's
operation, whatever byte it carries (R82; decision D4 of the spec, log 4). -/
def Obligations.HaltedStepReturnsRecordedFault : Prop :=
  ∀ (s : State) (rnd : Byte), s.halted = true →
    perform (.step rnd) s = (s, .stepFault s.faultCause s.faultOpcode s.faultPc)

/-- A fetch from an address of 4096 or more reads the word 0x0000 and raises InvalidOpcode, changing
nothing but `PC` and the report (R40, R70, R134, R138; at `PC` = 0xFFFF the second byte is the cell at
0, log 16). -/
def Obligations.FetchPastMemoryRaisesInvalidOpcode : Prop :=
  ∀ s : State, s.halted = false → 0x1000 ≤ s.pc.toNat → s.pc.toNat ≤ 0xFFFE →
    step s = .next (faulted s (s.pc + 2) .invalidOpcode 0x0000#16 s.pc)

/-- Self-modifying code: when Fx55 with `x` at least 1 stores at the address of the next instruction, the
next word fetched is `V[0]` and `V[1]`, and the next step runs it (R59). -/
def Obligations.StoredWordIsFetchedNext : Prop :=
  ∀ (x : Reg) (s : State), 1 ≤ x.val → s.i = s.pc → s.pc.toNat + 1 < 4096 →
    ∃ t, exec (.ldMemVx x) s = .next t ∧
      t.fetchWord.toNat = 256 * (s.getV 0).toNat + (s.getV 1).toNat ∧
      (∀ i, s.halted = false → encode i = t.fetchWord → step t = exec i { t with pc := s.pc + 2 })

/-- A fetched instruction other than Cxnn behaves the same whatever byte `STEP` carries (R109; the byte is
an input of `STEP` by decision D5 of the spec, log 2). -/
def Obligations.RandomByteMattersOnlyToRnd : Prop :=
  ∀ (s : State) (r r' : Byte),
    (∀ x nn, decode s.fetchWord ≠ .ok (.rnd x nn)) → stepWith r s = stepWith r' s

/-! ## Control transfer -/

/-- 00EE pops the newest return address into `PC`; on an empty stack it changes nothing, so `PC` stays
post-fetch (R84; the second clause is decision D11 of the spec, log 8). -/
def Obligations.RetPopsOrFallsThrough : Prop :=
  decode 0x00EE#16 = .ok .ret ∧
  (∀ (s : State) (ws : List Word) (w : Word), s.stack = ws ++ [w] →
    exec .ret s = .next { s with pc := w, stack := ws }) ∧
  (∀ s : State, s.stack = [] → exec .ret s = .next s)

/-- 1nnn: `PC <- zext_16(nnn)` and nothing else (R85). -/
def Obligations.JumpSetsPc : Prop :=
  ∀ (nnn : Addr12) (s : State),
    decode (wordNNN 0x1 nnn.toNat) = .ok (.jp nnn) ∧
    ∃ t, exec (.jp nnn) s = .next t ∧ t.pc.toNat = nnn.toNat ∧ t = { s with pc := t.pc }

/-- 2nnn pushes the post-fetch `PC` and jumps while fewer than 16 entries are on the stack; with 16 it
raises StackOverflow with its own word and address and changes nothing else (R86, R135, R139; the
second clause is decision D2 of the spec, log 3). -/
def Obligations.CallPushesOrOverflows : Prop :=
  ∀ (nnn : Addr12) (s : State),
    decode (wordNNN 0x2 nnn.toNat) = .ok (.call nnn) ∧
    (s.stack.length < 16 → ∃ t, exec (.call nnn) s = .next t ∧
      t.pc.toNat = nnn.toNat ∧ t = { s with pc := t.pc, stack := s.stack ++ [s.pc] }) ∧
    (s.stack.length = 16 → ∀ pc0, s.pc = pc0 + 2 →
      exec (.call nnn) s = .next (faulted s s.pc .stackOverflow (wordNNN 0x2 nnn.toNat) pc0))

/-- A return resumes exactly at the instruction after its call, with the stack as it was before the call,
whatever the subroutine did to the rest of the state (R93). -/
def Obligations.RetResumesAfterCall : Prop :=
  ∀ (nnn : Addr12) (s t u : State), s.stack.length < 16 → exec (.call nnn) s = .next t →
    u.stack = t.stack → ∃ w, exec .ret u = .next w ∧ w.pc = s.pc ∧ w.stack = s.stack ∧
      w = { u with pc := w.pc, stack := w.stack }

/-- 3xnn skips when `V[x]` equals `nn`, 4xnn when it differs; nothing but `PC` is written (R87, R88). -/
def Obligations.SkipsOnImmediate : Prop :=
  ∀ (x : Reg) (nn : Byte) (s : State),
    decode (wordXNN 0x3 x.val nn.toNat) = .ok (.seVxNn x nn) ∧
    decode (wordXNN 0x4 x.val nn.toNat) = .ok (.sneVxNn x nn) ∧
    (∃ t, exec (.seVxNn x nn) s = .next t ∧ t = { s with pc := t.pc } ∧
      ((s.getV x).toNat = nn.toNat → t.pc.toNat = (s.pc.toNat + 2) % 65536) ∧
      ((s.getV x).toNat ≠ nn.toNat → t.pc = s.pc)) ∧
    (∃ t, exec (.sneVxNn x nn) s = .next t ∧ t = { s with pc := t.pc } ∧
      ((s.getV x).toNat ≠ nn.toNat → t.pc.toNat = (s.pc.toNat + 2) % 65536) ∧
      ((s.getV x).toNat = nn.toNat → t.pc = s.pc))

/-- 5xy0 skips when `V[x]` equals `V[y]`, 9xy0 when they differ; nothing but `PC` is written; with `x` =
`y` the first always skips and the second never (R89, R90). -/
def Obligations.SkipsOnRegister : Prop :=
  ∀ (x y : Reg) (s : State),
    decode (word4 0x5 x.val y.val 0) = .ok (.seVxVy x y) ∧
    decode (word4 0x9 x.val y.val 0) = .ok (.sneVxVy x y) ∧
    (∃ t, exec (.seVxVy x y) s = .next t ∧ t = { s with pc := t.pc } ∧
      ((s.getV x).toNat = (s.getV y).toNat ∨ x = y → t.pc.toNat = (s.pc.toNat + 2) % 65536) ∧
      ((s.getV x).toNat ≠ (s.getV y).toNat → t.pc = s.pc)) ∧
    (∃ t, exec (.sneVxVy x y) s = .next t ∧ t = { s with pc := t.pc } ∧
      ((s.getV x).toNat ≠ (s.getV y).toNat → t.pc.toNat = (s.pc.toNat + 2) % 65536) ∧
      ((s.getV x).toNat = (s.getV y).toNat ∨ x = y → t.pc = s.pc))

/-- Bnnn: `PC` is `nnn + V[0]`, not reduced to 12 bits, and nothing else is written; from a target of
0x1000 or more the next step fetches 0x0000 and raises InvalidOpcode (R91). -/
def Obligations.IndexedJumpAddsV0 : Prop :=
  ∀ (nnn : Addr12) (s : State),
    decode (wordNNN 0xB nnn.toNat) = .ok (.jpV0 nnn) ∧
    ∃ t, exec (.jpV0 nnn) s = .next t ∧
      t.pc.toNat = nnn.toNat + (s.getV 0).toNat ∧ t = { s with pc := t.pc } ∧
      (s.halted = false → 0x1000 ≤ nnn.toNat + (s.getV 0).toNat →
        step t = .next (faulted t (t.pc + 2) .invalidOpcode 0x0000#16 t.pc))

/-! ## Registers and arithmetic (`41_register_alu.md`) -/

/-- 6xnn: `V[x] <- nn`; VF changes only as the destination (R96). -/
def Obligations.LoadImmediateSetsRegister : Prop :=
  ∀ (x : Reg) (nn : Byte) (s : State),
    decode (wordXNN 0x6 x.val nn.toNat) = .ok (.ldVxNn x nn) ∧
    ∃ t, exec (.ldVxNn x nn) s = .next t ∧ t.getV x = nn ∧
      (∀ r, r ≠ x → t.getV r = s.getV r) ∧ t = { s with v := t.v }

/-- 7xnn: `V[x] <- (V[x] + nn) mod 256`, no flag touched even on overflow (R97). -/
def Obligations.AddImmediateWrapsWithoutFlag : Prop :=
  ∀ (x : Reg) (nn : Byte) (s : State),
    decode (wordXNN 0x7 x.val nn.toNat) = .ok (.addVxNn x nn) ∧
    ∃ t, exec (.addVxNn x nn) s = .next t ∧
      (t.getV x).toNat = ((s.getV x).toNat + nn.toNat) % 256 ∧
      (∀ r, r ≠ x → t.getV r = s.getV r) ∧ t = { s with v := t.v }

/-- 8xy0: `V[x] <- V[y]`; VF is written only as the destination; with `x` = `y` nothing changes (R98). -/
def Obligations.CopyRegister : Prop :=
  ∀ (x y : Reg) (s : State),
    decode (word4 0x8 x.val y.val 0x0) = .ok (.ldVxVy x y) ∧
    ∃ t, exec (.ldVxVy x y) s = .next t ∧ t.getV x = s.getV y ∧
      (∀ r, r ≠ x → t.getV r = s.getV r) ∧ t = { s with v := t.v } ∧ (x = y → t = s)

/-- 8xy1, 8xy2, 8xy3: bitwise OR, AND, XOR of the values before the instruction; VF is set to 0 on every
execution (R99, R100, R101); that with `x` = 0xF this 0 overwrites the result is decision D9 of the spec
(R95, log 7). -/
def Obligations.LogicInstructionsClearVF : Prop :=
  ∀ (x y : Reg) (s : State),
    decode (word4 0x8 x.val y.val 0x1) = .ok (.or x y) ∧
    decode (word4 0x8 x.val y.val 0x2) = .ok (.and x y) ∧
    decode (word4 0x8 x.val y.val 0x3) = .ok (.xor x y) ∧
    LogicResult (.or x y) x y (fun a b => a || b) s ∧
    LogicResult (.and x y) x y (fun a b => a && b) s ∧
    LogicResult (.xor x y) x y (fun a b => a ^^ b) s

/-- 8xy4: `V[x] <- s mod 256`, VF 1 exactly when the sum exceeds 255 (R102); that with `x` = 0xF the carry
stays is decision D9 of the spec (R95, log 7). -/
def Obligations.AddSetsCarry : Prop :=
  ∀ (x y : Reg) (s : State),
    decode (word4 0x8 x.val y.val 0x4) = .ok (.addVxVy x y) ∧
    ∃ t, exec (.addVxVy x y) s = .next t ∧
      (x ≠ 15 → (t.getV x).toNat = ((s.getV x).toNat + (s.getV y).toNat) % 256) ∧
      ((s.getV x).toNat + (s.getV y).toNat > 255 → (t.getV 15).toNat = 1) ∧
      ((s.getV x).toNat + (s.getV y).toNat ≤ 255 → (t.getV 15).toNat = 0) ∧
      (∀ r, r ≠ x → r ≠ 15 → t.getV r = s.getV r) ∧ t = { s with v := t.v }

/-- 8xy5: `V[x] <- (V[x] - V[y]) mod 256`, VF 1 exactly when no borrow occurs (R103); that with `x` = 0xF the
flag stays is decision D9 of the spec (R95, log 7). -/
def Obligations.SubSetsNoBorrow : Prop :=
  ∀ (x y : Reg) (s : State),
    decode (word4 0x8 x.val y.val 0x5) = .ok (.sub x y) ∧
    ∃ t, exec (.sub x y) s = .next t ∧
      (x ≠ 15 → ((t.getV x).toNat : Int) = (((s.getV x).toNat : Int) - (s.getV y).toNat) % 256) ∧
      ((s.getV x).toNat ≥ (s.getV y).toNat → (t.getV 15).toNat = 1) ∧
      ((s.getV x).toNat < (s.getV y).toNat → (t.getV 15).toNat = 0) ∧
      (∀ r, r ≠ x → r ≠ 15 → t.getV r = s.getV r) ∧ t = { s with v := t.v }

/-- 8xy6: `V[x] <- V[x] div 2`, VF the low bit of the old `V[x]`; the register `y` names plays no part
(R104); that with `x` = 0xF the flag stays is decision D9 of the spec (R95, log 7). -/
def Obligations.ShiftRightTakesLowBit : Prop :=
  ∀ (x y : Reg) (s : State),
    decode (word4 0x8 x.val y.val 0x6) = .ok (.shr x y) ∧
    ∃ t, exec (.shr x y) s = .next t ∧
      (x ≠ 15 → (t.getV x).toNat = (s.getV x).toNat / 2) ∧
      (t.getV 15).toNat = (s.getV x).toNat % 2 ∧
      (∀ r, r ≠ x → r ≠ 15 → t.getV r = s.getV r) ∧ t = { s with v := t.v } ∧
      (∀ y', exec (.shr x y') s = .next t)

/-- 8xy7: `V[x] <- (V[y] - V[x]) mod 256`, VF 1 exactly when no borrow occurs (R105); that with `x` = 0xF the
flag stays is decision D9 of the spec (R95, log 7). -/
def Obligations.SubnSetsNoBorrow : Prop :=
  ∀ (x y : Reg) (s : State),
    decode (word4 0x8 x.val y.val 0x7) = .ok (.subn x y) ∧
    ∃ t, exec (.subn x y) s = .next t ∧
      (x ≠ 15 → ((t.getV x).toNat : Int) = (((s.getV y).toNat : Int) - (s.getV x).toNat) % 256) ∧
      ((s.getV y).toNat ≥ (s.getV x).toNat → (t.getV 15).toNat = 1) ∧
      ((s.getV y).toNat < (s.getV x).toNat → (t.getV 15).toNat = 0) ∧
      (∀ r, r ≠ x → r ≠ 15 → t.getV r = s.getV r) ∧ t = { s with v := t.v }

/-- 8xyE: `V[x] <- (V[x] * 2) mod 256`, VF the high bit of the old `V[x]`; the register `y` names plays no
part (R106); that with `x` = 0xF the flag stays is decision D9 of the spec (R95, log 7). -/
def Obligations.ShiftLeftTakesHighBit : Prop :=
  ∀ (x y : Reg) (s : State),
    decode (word4 0x8 x.val y.val 0xE) = .ok (.shl x y) ∧
    ∃ t, exec (.shl x y) s = .next t ∧
      (x ≠ 15 → (t.getV x).toNat = (s.getV x).toNat * 2 % 256) ∧
      (t.getV 15).toNat = (s.getV x).toNat / 128 ∧
      (∀ r, r ≠ x → r ≠ 15 → t.getV r = s.getV r) ∧ t = { s with v := t.v } ∧
      (∀ y', exec (.shl x y') s = .next t)

/-- Cxnn, for every value the random byte may have: `V[x] <- rnd AND nn`, no flag; beside `V[x]` only the
model's own two fields for the random byte change (R109; the byte is an input of `STEP` by decision D5
of the spec, log 2). -/
def Obligations.RndMasksRandomByte : Prop :=
  ∀ (x : Reg) (nn : Byte) (s : State),
    decode (wordXNN 0xC x.val nn.toNat) = .ok (.rnd x nn) ∧
    ∃ t, exec (.rnd x nn) s = .next t ∧
      (∀ j < 8, (t.getV x).getLsbD j = (s.rndNext.getLsbD j && nn.getLsbD j)) ∧
      (∀ r, r ≠ x → t.getV r = s.getV r) ∧
      t = { s with v := t.v, rndSupply := t.rndSupply, rndDraws := t.rndDraws }

/-- `STEP(rnd)` at a word Cxnn puts `rnd AND nn` in `V[x]`, advances `PC`, returns `Ok`, and changes
nothing else (R81, R109; decision D5 of the spec, log 2). -/
def Obligations.StepUsesTheSuppliedByte : Prop :=
  ∀ (x : Reg) (nn rnd : Byte) (s : State), s.halted = false →
    s.fetchWord = wordXNN 0xC x.val nn.toNat →
    perform (.step rnd) s = ({ s with v := s.v.set x (rnd &&& nn), pc := s.pc + 2 }, .stepOk)

/-! ## Index register and memory (`42_index_and_memory.md`) -/

/-- Annn: `I <- zext_16(nnn)` and nothing else (R110). -/
def Obligations.LoadIndexImmediate : Prop :=
  ∀ (nnn : Addr12) (s : State),
    decode (wordNNN 0xA nnn.toNat) = .ok (.ldINnn nnn) ∧
    ∃ t, exec (.ldINnn nnn) s = .next t ∧ t.i.toNat = nnn.toNat ∧ t = { s with i := t.i }

/-- Fx1E: `I <- (I + V[x]) mod 65536`, not reduced to 12 bits, VF not written, nothing else (R111); the wrap
at 65536 is decision D6 of the spec (R116, log 5). -/
def Obligations.AddToIndexWrapsSilently : Prop :=
  ∀ (x : Reg) (s : State),
    decode (wordXNN 0xF x.val 0x1E) = .ok (.addIVx x) ∧
    ∃ t, exec (.addIVx x) s = .next t ∧
      t.i.toNat = (s.i.toNat + (s.getV x).toNat) % 65536 ∧ t = { s with i := t.i }

/-- Fx29: `I <- V[x] * 5`, the whole byte, and nothing else (R112). -/
def Obligations.GlyphAddressIsFiveTimes : Prop :=
  ∀ (x : Reg) (s : State),
    decode (wordXNN 0xF x.val 0x29) = .ok (.ldFVx x) ∧
    ∃ t, exec (.ldFVx x) s = .next t ∧ t.i.toNat = (s.getV x).toNat * 5 ∧ t = { s with i := t.i }

/-- Fx33 stores the hundreds, tens and ones digits of `V[x]` at `I`, `I + 1`, `I + 2`, each where a cell
is and dropped where none is; every other address reads as before; nothing but memory changes (R113).
That the addresses wrap at 65536 is decision D7 of the spec (R42, log 5), that the font is written like
any cell decision D18 (R49, log 12). -/
def Obligations.DecimalDigitsAreStored : Prop :=
  ∀ (x : Reg) (s : State),
    decode (wordXNN 0xF x.val 0x33) = .ok (.ldBVx x) ∧
    ∃ t, exec (.ldBVx x) s = .next t ∧
      (∀ k < 16, (effAddr s.i k).toNat = (s.i.toNat + k) % 65536) ∧
      (∀ p ∈ [(0, (s.getV x).toNat / 100), (1, (s.getV x).toNat / 10 % 10), (2, (s.getV x).toNat % 10)],
        ((effAddr s.i p.1).toNat < 4096 → (t.mem.read (effAddr s.i p.1)).toNat = p.2) ∧
        (4096 ≤ (effAddr s.i p.1).toNat → t.mem.read (effAddr s.i p.1) = 0)) ∧
      (∀ a, (∀ k ≤ 2, a ≠ effAddr s.i k) → t.mem.read a = s.mem.read a) ∧
      t = { s with mem := t.mem }

/-- Fx55 stores `V[k]` at `I + k` for `k` from 0 to `x`, each where a cell is and dropped where none is;
every other address reads as before; then `I <- (I + x + 1) mod 65536`; nothing else changes (R114).
That the addresses and `I` wrap at 65536 is decisions D7 and D6 of the spec (R42, R116, log 5), that the
font is written like any cell decision D18 (R49, log 12). -/
def Obligations.BlockStoreWritesRegisters : Prop :=
  ∀ (x : Reg) (s : State),
    decode (wordXNN 0xF x.val 0x55) = .ok (.ldMemVx x) ∧
    ∃ t, exec (.ldMemVx x) s = .next t ∧
      (∀ k < 16, (effAddr s.i k).toNat = (s.i.toNat + k) % 65536) ∧
      (∀ k : Reg, k ≤ x →
        ((effAddr s.i k.val).toNat < 4096 → t.mem.read (effAddr s.i k.val) = s.getV k) ∧
        (4096 ≤ (effAddr s.i k.val).toNat → t.mem.read (effAddr s.i k.val) = 0)) ∧
      (∀ a, (∀ k : Reg, k ≤ x → a ≠ effAddr s.i k.val) → t.mem.read a = s.mem.read a) ∧
      t.i.toNat = (s.i.toNat + x.val + 1) % 65536 ∧ t = { s with mem := t.mem, i := t.i }

/-- Fx65 loads `V[k]` from `I + k` for `k` from 0 to `x`, 0 where no cell is; the registers above `V[x]`
are unchanged; then `I <- (I + x + 1) mod 65536`; nothing else changes (R115, R40). That the addresses
and `I` wrap at 65536 is decisions D7 and D6 of the spec (R42, R116, log 5). -/
def Obligations.BlockLoadReadsMemory : Prop :=
  ∀ (x : Reg) (s : State),
    decode (wordXNN 0xF x.val 0x65) = .ok (.ldVxMem x) ∧
    ∃ t, exec (.ldVxMem x) s = .next t ∧
      (∀ k < 16, (effAddr s.i k).toNat = (s.i.toNat + k) % 65536) ∧
      (∀ k : Reg, k ≤ x →
        t.getV k = s.mem.read (effAddr s.i k.val) ∧
        (4096 ≤ (effAddr s.i k.val).toNat → t.getV k = 0)) ∧
      (∀ k : Reg, x < k → t.getV k = s.getV k) ∧
      t.i.toNat = (s.i.toNat + x.val + 1) % 65536 ∧ t = { s with v := t.v, i := t.i }

/-- Fx55, then `I` set back, then Fx65 with the same `x`, restores `V[0]` to `V[x]` into any registers,
provided all the addresses are below 4096 (R115). -/
def Obligations.StoreThenLoadRestores : Prop :=
  ∀ (x : Reg) (s t : State) (v : Vector Byte 16),
    exec (.ldMemVx x) s = .next t → s.i.toNat + x.val < 4096 →
    ∃ u, exec (.ldVxMem x) { t with v := v, i := s.i } = .next u ∧ ∀ k : Reg, k ≤ x → u.getV k = s.getV k

/-! ## Display (`43_display.md`) -/

/-- 00E0: all 2048 pixels 0; VF and everything else unchanged (R120). -/
def Obligations.ClearBlanksTheScreen : Prop :=
  decode 0x00E0#16 = .ok .cls ∧
  ∀ s : State, ∃ t, exec .cls s = .next t ∧
    (∀ (x : Fin 64) (y : Fin 32), t.fb[y][x] = false) ∧ t = { s with fb := t.fb }

/-- Dxyn flips exactly the on-screen pixels under the sprite's 1 bits, with the start position the full
values of `V[x]` and `V[y]` before the instruction and no pixel wrapped; VF is 1 exactly when a set
pixel was toggled off, else 0; nothing else changes (R121). That with `x` or `y` = 0xF the position is
the old VF is decision D10 of the spec (R122 item 8, log 7), that row addresses wrap at 65536 decision
D7 (R42, log 5). -/
def Obligations.DrawXorsTheSprite : Prop :=
  ∀ (x y : Reg) (n : Fin 16) (s : State),
    decode (word4 0xD x.val y.val n.val) = .ok (.drw x y n) ∧
    ∃ t, exec (.drw x y n) s = .next t ∧
      (∀ px py : Nat, px < 64 → py < 32 → t.fb.getPixel px py =
        (s.fb.getPixel px py ^^ spriteBit s (s.getV x).toNat (s.getV y).toNat n.val px py)) ∧
      (Collides s (s.getV x).toNat (s.getV y).toNat n.val → (t.getV 15).toNat = 1) ∧
      (¬ Collides s (s.getV x).toNat (s.getV y).toNat n.val → (t.getV 15).toNat = 0) ∧
      (∀ r, r ≠ 15 → t.getV r = s.getV r) ∧ t = { s with v := t.v, fb := t.fb }

/-- A start position off the screen draws nothing and leaves VF 0 (R122 item 1); that with `x` or `y` = 0xF
the position is the old VF is decision D10 of the spec (R122 item 8, log 7). -/
def Obligations.OffScreenStartDrawsNothing : Prop :=
  ∀ (x y : Reg) (n : Fin 16) (s : State), 64 ≤ (s.getV x).toNat ∨ 32 ≤ (s.getV y).toNat →
    ∃ t, exec (.drw x y n) s = .next t ∧ t.fb = s.fb ∧ t.getV 15 = 0

/-- Drawing the same sprite twice at the same place restores the framebuffer; VF after the second draw is 1
exactly when a sprite bit of 1 lies over an on-screen pixel that was clear at the start, so for a sprite
with an in-bounds 1 bit that collided with nothing it is 1 (R121; R122 item 9 says so without the
condition, log 16). -/
def Obligations.DrawingTwiceRestores : Prop :=
  ∀ (x y : Reg) (n : Fin 16) (s t u : State), x ≠ 15 → y ≠ 15 →
    exec (.drw x y n) s = .next t → exec (.drw x y n) t = .next u →
    u.fb = s.fb ∧
    ((∃ px py : Nat, px < 64 ∧ py < 32 ∧ s.fb.getPixel px py = false ∧
        spriteBit s (s.getV x).toNat (s.getV y).toNat n.val px py = true) ↔ u.getV 15 = 1) ∧
    (InBoundsBit s (s.getV x).toNat (s.getV y).toNat n.val → t.getV 15 = 0 → u.getV 15 = 1)

/-! ## Keys and timers (`44_keypad_and_timers.md`) -/

/-- Fx0A: with no key down `PC` goes back by 2 and nothing else changes; else `V[x]` is the lowest key
down and nothing else changes (R127). -/
def Obligations.KeyWaitSpinsOrLoadsLowestKey : Prop :=
  ∀ (x : Reg) (s : State),
    decode (wordXNN 0xF x.val 0x0A) = .ok (.ldVxK x) ∧
    ((∀ k : Reg, s.keys[k] = false) → ∃ t, exec (.ldVxK x) s = .next t ∧
      (t.pc.toNat : Int) = ((s.pc.toNat : Int) - 2) % 65536 ∧ t = { s with pc := t.pc }) ∧
    (∀ k : Reg, s.keys[k] = true → (∀ j : Reg, j < k → s.keys[j] = false) →
      ∃ t, exec (.ldVxK x) s = .next t ∧ (t.getV x).toNat = k.val ∧
        (∀ r, r ≠ x → t.getV r = s.getV r) ∧ t = { s with v := t.v })

/-- Ex9E skips when the key numbered by `V[x]` is down, ExA1 when it is up; a number above 15 is no key
and counts as up (`IsDown` of R125, for any integer); nothing but `PC` is written (R128, R129). -/
def Obligations.SkipsOnKey : Prop :=
  ∀ (x : Reg) (s : State),
    decode (wordXNN 0xE x.val 0x9E) = .ok (.skp x) ∧ decode (wordXNN 0xE x.val 0xA1) = .ok (.sknp x) ∧
    (∀ k : Reg, s.isDown k.val = s.keys[k]) ∧ (∀ k : Int, k < 0 ∨ 15 < k → s.isDown k = false) ∧
    ∃ t u, exec (.skp x) s = .next t ∧ exec (.sknp x) s = .next u ∧
      t = { s with pc := t.pc } ∧ u = { s with pc := u.pc } ∧
      (∀ k : Reg, (s.getV x).toNat = k.val → s.keys[k] = true →
        t.pc.toNat = (s.pc.toNat + 2) % 65536 ∧ u.pc = s.pc) ∧
      (∀ k : Reg, (s.getV x).toNat = k.val → s.keys[k] = false →
        t.pc = s.pc ∧ u.pc.toNat = (s.pc.toNat + 2) % 65536) ∧
      (16 ≤ (s.getV x).toNat → t.pc = s.pc ∧ u.pc.toNat = (s.pc.toNat + 2) % 65536)

/-- Fx07: `V[x] <- DT`; Fx15: `DT <- V[x]`; Fx18: `ST <- V[x]`; each changes nothing else (R130, R131,
R132). -/
def Obligations.TimerMoves : Prop :=
  ∀ (x : Reg) (s : State),
    decode (wordXNN 0xF x.val 0x07) = .ok (.ldVxDt x) ∧
    decode (wordXNN 0xF x.val 0x15) = .ok (.ldDtVx x) ∧
    decode (wordXNN 0xF x.val 0x18) = .ok (.ldStVx x) ∧
    (∃ t, exec (.ldVxDt x) s = .next t ∧ t.getV x = s.dt ∧
      (∀ r, r ≠ x → t.getV r = s.getV r) ∧ t = { s with v := t.v }) ∧
    exec (.ldDtVx x) s = .next { s with dt := s.getV x } ∧
    exec (.ldStVx x) s = .next { s with st := s.getV x }

/-! ## Reset, load and the other operations of the host -/

/-- After `RESET`, from any state, every piece of state has the value of the table of R35: registers,
`I`, timers, screen, keys and fault registers 0, `PC` 0x200, stack empty, memory zero but for the font
(R35, R158; `I`, the fault registers and RESET of a halted machine are decisions D14, D3, D23 of the
spec, logs 11 and 20). -/
def Obligations.ResetLeavesTheTableOfR35 : Prop :=
  ∀ s t : State, t = (perform .reset s).1 ∨ t = State.reset →
    (∀ r : Reg, t.getV r = 0) ∧ t.i = 0 ∧ t.pc = 0x200#16 ∧ t.sp = 0 ∧ t.dt = 0 ∧ t.st = 0 ∧
    (∀ a : Word, a.toNat < 80 → t.mem.read a = Config.font.getD a.toNat 0) ∧
    (∀ a : Word, 80 ≤ a.toNat → t.mem.read a = 0) ∧
    (∀ x y : Int, t.fb.getPixel x y = false) ∧ (∀ k : Reg, t.keys[k] = false) ∧
    t.halted = false ∧ t.faultCause = .none ∧ t.faultOpcode = 0 ∧ t.faultPc = 0

/-- A `STEP` of a freshly reset machine fetches 0x0000 from 0x200 and raises InvalidOpcode (R160; rests on
decision D15 of the spec, log 11). -/
def Obligations.StepAtPowerOnFaults : Prop :=
  State.reset.fetchWord = 0x0000#16 ∧
  step State.reset = .next (faulted State.reset 0x202#16 .invalidOpcode 0x0000#16 0x200#16)

/-- `LOAD(bytes)`: byte `k` stands at 0x200 + `k` where that is below 4096, every other cell and every
other piece of the block's state is as after `RESET`, and the result depends on `bytes` alone but for
the model's own two fields for the random byte, which `LOAD` keeps (R159; log 17). That bytes past 4095
are dropped is decision D16 of the spec (R50, log 12), `LOAD` of a halted machine decision D23 (log 20). -/
def Obligations.LoadPlacesTheProgram : Prop :=
  ∀ (bytes : List Byte) (s : State), ∃ t, perform (.load bytes) s = (t, .done) ∧
    (∀ (k : Nat) (h : k < bytes.length), 0x200 + k < 4096 →
      t.mem.read (BitVec.ofNat 16 (0x200 + k)) = bytes[k]) ∧
    (∀ a : Word, a.toNat < 0x200 ∨ 0x200 + bytes.length ≤ a.toNat →
      t.mem.read a = State.reset.mem.read a) ∧
    t = { (perform .reset s).1 with mem := t.mem } ∧
    (∀ s', s'.rndSupply = s.rndSupply → s'.rndDraws = s.rndDraws → perform (.load bytes) s' = (t, .done))

/-- `TICK` lowers each timer that is not 0 by 1, both in the same tick, and changes nothing else; halted,
it changes nothing (R146). -/
def Obligations.TickLowersTimers : Prop :=
  ∀ s : State, ∃ t, perform .tick s = (t, .done) ∧
    (s.halted = true → t = s) ∧
    (s.halted = false → t.dt.toNat = s.dt.toNat - 1 ∧ t.st.toNat = s.st.toNat - 1 ∧
      t = { s with dt := t.dt, st := t.st })

/-- A timer set to `v` reads 0 after `v` ticks: after `n` ticks of a running machine each timer is lower by
`n`, never below 0 (R147). -/
def Obligations.TimersReachZeroAfterTheirTicks : Prop :=
  ∀ (n : Nat) (s : State), s.halted = false →
    (runOps (List.replicate n .tick) s).dt.toNat = s.dt.toNat - n ∧
    (runOps (List.replicate n .tick) s).st.toNat = s.st.toNat - n

/-- `KEY_SET(key, down)` sets the flag of a key from 0 to 15, in every state; any other number changes
nothing (R150; the last clause is decision D13 of the spec, log 10). -/
def Obligations.KeySetSetsOneKey : Prop :=
  ∀ (key : Int) (down : Bool) (s : State), ∃ t, perform (.keySet key down) s = (t, .done) ∧
    (∀ k : Reg, key = k.val → t.keys[k] = down) ∧
    (∀ k : Reg, key ≠ k.val → t.keys[k] = s.keys[k]) ∧
    t = { s with keys := t.keys } ∧ (key < 0 ∨ 15 < key → t = s)

/-- `GET_PIXEL` returns the pixel, false outside the screen, `SOUND` the sound timer, `FAULT_STATUS` the
latch and its report; none changes any state (R118, R141, R152). -/
def Obligations.HostReadsChangeNothing : Prop :=
  ∀ s : State,
    (∀ (x : Fin 64) (y : Fin 32), perform (.getPixel x.val y.val) s = (s, .pixel s.fb[y][x])) ∧
    (∀ x y : Int, x < 0 ∨ 64 ≤ x ∨ y < 0 ∨ 32 ≤ y → perform (.getPixel x y) s = (s, .pixel false)) ∧
    perform .sound s = (s, .sound s.st) ∧
    perform .faultStatus s = (s, .status s.halted s.faultCause s.faultOpcode s.faultPc)

/-! ## The whole machine -/

/-- Who writes what: memory only Fx33 and Fx55; the framebuffer only 00E0 and Dxyn; `I` only Annn, Fx1E,
Fx29, Fx55 and Fx65; the stack only 2nnn and 00EE; `DT` only Fx15 and `ST` only Fx18; the fault
registers only a fault, which only 2nnn with no room raises; the keys no instruction (R18, R25, R29 to
R31, R46, R124). -/
def Obligations.EachPieceOfStateHasItsWriters : Prop :=
  ∀ (i : Instr) (s t : State), exec i s = .next t →
    (t.mem ≠ s.mem → ∃ x, i = .ldBVx x ∨ i = .ldMemVx x) ∧
    (t.fb ≠ s.fb → i = .cls ∨ ∃ x y n, i = .drw x y n) ∧
    (t.i ≠ s.i → (∃ nnn, i = .ldINnn nnn) ∨
      ∃ x, i = .addIVx x ∨ i = .ldFVx x ∨ i = .ldMemVx x ∨ i = .ldVxMem x) ∧
    (t.stack ≠ s.stack → i = .ret ∨ ∃ nnn, i = .call nnn) ∧
    (t.dt ≠ s.dt → ∃ x, i = .ldDtVx x) ∧ (t.st ≠ s.st → ∃ x, i = .ldStVx x) ∧
    t.keys = s.keys ∧
    (t.halted ≠ s.halted ∨ t.faultCause ≠ s.faultCause ∨ t.faultOpcode ≠ s.faultOpcode ∨
      t.faultPc ≠ s.faultPc → ∃ nnn, i = .call nnn ∧ 16 ≤ s.stack.length)

/-- VF changes only through the nine flag-writing instructions, or as the ordinary destination of an
instruction whose `x` field is 0xF (R16). -/
def Obligations.OnlyTheseInstructionsChangeVF : Prop :=
  ∀ (i : Instr) (s t : State), exec i s = .next t → t.getV 15 ≠ s.getV 15 →
    (∃ x y, i = .or x y ∨ i = .and x y ∨ i = .xor x y ∨ i = .addVxVy x y ∨ i = .sub x y ∨
      i = .subn x y ∨ i = .shr x y ∨ i = .shl x y ∨ ∃ n, i = .drw x y n) ∨
    (∃ nn, i = .ldVxNn 15 nn ∨ i = .addVxNn 15 nn ∨ i = .rnd 15 nn) ∨
    (∃ y, i = .ldVxVy 15 y) ∨ i = .ldVxDt 15 ∨ i = .ldVxK 15 ∨ i = .ldVxMem 15

/-- Faults are precise: where a step of a running machine halts it, the faulting instruction has changed
nothing but `PC`, which holds `pc0 + 2`, and the report, which names the word and its address; the
cause is InvalidOpcode for a word that is no instruction and StackOverflow for a call with 16 entries
(R138, R134, R135, R139). The overflow at 16 entries is decision D2 of the spec (log 3), the latch and
the report decision D3 (log 4). -/
def Obligations.FaultsArePrecise : Prop :=
  ∀ s t : State, s.halted = false → s.stack.length ≤ 16 → step s = .next t → t.halted = true →
    (t = faulted s (s.pc + 2) .invalidOpcode s.fetchWord s.pc ∧ ∃ e, decode s.fetchWord = .error e) ∨
    (t = faulted s (s.pc + 2) .stackOverflow s.fetchWord s.pc ∧ s.stack.length = 16 ∧
      ∃ nnn, decode s.fetchWord = .ok (.call nnn))

/-- `PC` after each instruction, as the table of R20 lists it, for the instruction fetched from `pc0`. The row
of 00EE on an empty stack is decision D11 of the spec (log 8), that of 2nnn with 16 entries, here
with 16 or more, decision D2 (log 3; log 18). -/
def Obligations.PcAfterEachInstruction : Prop :=
  (∀ (i : Instr) (s t : State) (pc0 : Word), s.pc = pc0 + 2 → exec i s = .next t →
    match i with
    | .jp nnn => t.pc = zextAddr nnn
    | .call nnn => t.pc = if s.stack.length < 16 then zextAddr nnn else pc0 + 2
    | .jpV0 nnn => t.pc = zextAddr nnn + zextByte (s.getV 0)
    | .ret => (∀ ws w, s.stack = ws ++ [w] → t.pc = w) ∧ (s.stack = [] → t.pc = pc0 + 2)
    | .seVxNn x nn => t.pc = if s.getV x = nn then pc0 + 4 else pc0 + 2
    | .sneVxNn x nn => t.pc = if s.getV x ≠ nn then pc0 + 4 else pc0 + 2
    | .seVxVy x y => t.pc = if s.getV x = s.getV y then pc0 + 4 else pc0 + 2
    | .sneVxVy x y => t.pc = if s.getV x ≠ s.getV y then pc0 + 4 else pc0 + 2
    | .skp x => t.pc = if s.isDown (s.getV x).toNat then pc0 + 4 else pc0 + 2
    | .sknp x => t.pc = if s.isDown (s.getV x).toNat then pc0 + 2 else pc0 + 4
    | .ldVxK _ => t.pc = if ∃ k : Reg, s.keys[k] = true then pc0 + 2 else pc0
    | _ => t.pc = pc0 + 2) ∧
  (∀ (s : State) (e : Invalid), s.halted = false → decode s.fetchWord = .error e →
    ∃ t, step s = .next t ∧ t.pc = s.pc + 2 ∧ t.halted = true)

/-- At a jump to itself every `STEP` leaves the whole state as it found it (R172; that a program ends so
is a convention, decision D17 of the spec, log 21). -/
def Obligations.SelfJumpLeavesTheState : Prop :=
  ∀ (s : State) (rnd : Byte), s.atSelfJump → step s = .next s ∧ perform (.step rnd) s = (s, .stepOk)

/-- While the machine is halted no operation but `RESET` and `LOAD` changes anything but the keys (R37,
R143; decision D4 of the spec, log 4). -/
def Obligations.HaltedMachineIsFrozen : Prop :=
  ∀ (op : HostOp) (s t : State), s.halted = true → op ≠ .reset → (∀ bytes, op ≠ .load bytes) →
    t = (perform op s).1 → t = { s with keys := t.keys } ∧ ((∀ k d, op ≠ .keySet k d) → t = s)

/-- The invariant of R37 (and the canonical form of memory, log 15) holds right after reset. -/
def Obligations.InvariantHoldsAtReset : Prop := State.reset.Inv

/-- Every step keeps the invariant of R37: memory canonical (the model's own form, log 15), at most 16
return addresses each in 2 to 0x1001, `PC` at most 0x1100, and at most 0x10FE while not halted, and
`HALTED` set exactly when a cause is recorded, with the report `(None, 0, 0)` while it is not. -/
def Obligations.EveryStepKeepsTheInvariant : Prop :=
  ∀ s t : State, s.Inv → step s = .next t → t.Inv

/-- Every state that any list of host operations leads to from reset, under any interleaving of `STEP`,
`TICK`, `KEY_SET`, `LOAD` and the rest, meets the invariant of R37 (with the canonical form of memory,
log 15), and every operation keeps it. -/
def Obligations.EveryReachableStateMeetsTheInvariant : Prop :=
  (∀ (op : HostOp) (s : State), s.Inv → (perform op s).1.Inv) ∧ ∀ s : State, s.Reachable → s.Inv
end

