-- ==== Sys2Proof/Laws/Decode.lean ====
section
/-! SUPPORT. The fields of a word and the words of the encoder as numbers, so that a proof about decoding
is arithmetic; the masks of the opcode table; every instruction is well formed. -/

namespace Sys2Proof

/-- The typed fields of `Instr` admit exactly the operand values the checks admit (R66 to R68). -/
@[simp] theorem wellFormed_all (i : Instr) : WellFormed i = true := by
  have h8 (b : Byte) : b.toNat < 256 := b.isLt
  have h12 (a : Addr12) : a.toNat < 4096 := a.isLt
  cases i <;>
    simp [WellFormed, Instr.format, Instr.numerals, Format.accepts, regOk, byteOk, addrOk, countOk, h8, h12]

/-! ### Words as numbers -/

theorem toNat_append_eq {m n : Nat} (a : BitVec m) (b : BitVec n) :
    (a ++ b).toNat = a.toNat * 2 ^ n + b.toNat := by
  rw [BitVec.toNat_append, ← Nat.shiftLeft_add_eq_or_of_lt b.isLt, Nat.shiftLeft_eq]

theorem nibbles_toNat (p : BitVec 4) (x y n : Fin 16) :
    (nibbles p x y n).toNat = 4096 * p.toNat + 256 * x.val + 16 * y.val + n.val := by
  change (p ++ BitVec.ofFin (w := 4) x ++ BitVec.ofFin (w := 4) y ++ BitVec.ofFin (w := 4) n).toNat = _
  simp only [toNat_append_eq, BitVec.toNat_ofFin]
  omega

theorem wordXI_toNat (p : BitVec 4) (x : Reg) (nn : Byte) :
    (wordXI p x nn).toNat = 4096 * p.toNat + 256 * x.val + nn.toNat := by
  change (p ++ BitVec.ofFin (w := 4) x ++ nn).toNat = _
  simp only [toNat_append_eq, BitVec.toNat_ofFin]
  omega

theorem wordA_toNat (p : BitVec 4) (nnn : Addr12) :
    (wordA p nnn).toNat = 4096 * p.toNat + nnn.toNat := by
  change (p ++ nnn).toNat = _
  rw [toNat_append_eq]
  omega

theorem wordOfBytes_toNat (hi lo : Byte) : (wordOfBytes hi lo).toNat = 256 * hi.toNat + lo.toNat := by
  change (hi ++ lo).toNat = _
  rw [toNat_append_eq]
  omega

/-- Laying a word out in memory order and reading it back (R43, R64). -/
theorem wordOfBytes_bytesOfWord (op : Word) :
    wordOfBytes (op.extractLsb' 8 8) (op.extractLsb' 0 8) = op := by
  apply BitVec.eq_of_toNat_eq
  have := op.isLt
  simp only [wordOfBytes_toNat, BitVec.extractLsb'_toNat, Nat.shiftRight_eq_div_pow]
  omega

/-! ### Fields as numbers (R65) -/

theorem fieldP_eq (op : Word) : fieldP op = op.toNat / 4096 := by
  have := op.isLt
  simp only [fieldP, BitVec.extractLsb'_toNat, Nat.shiftRight_eq_div_pow]
  omega

theorem fieldX_val (op : Word) : (fieldX op).val = op.toNat / 256 % 16 := by
  change (op.extractLsb' 8 4).toNat = _
  simp only [BitVec.extractLsb'_toNat, Nat.shiftRight_eq_div_pow]

theorem fieldY_val (op : Word) : (fieldY op).val = op.toNat / 16 % 16 := by
  change (op.extractLsb' 4 4).toNat = _
  simp only [BitVec.extractLsb'_toNat, Nat.shiftRight_eq_div_pow]

theorem fieldN_val (op : Word) : (fieldN op).val = op.toNat % 16 := by
  change (op.extractLsb' 0 4).toNat = _
  simp only [BitVec.extractLsb'_toNat, Nat.shiftRight_eq_div_pow]
  omega

theorem fieldNN_toNat (op : Word) : (fieldNN op).toNat = op.toNat % 256 := by
  simp only [fieldNN, BitVec.extractLsb'_toNat, Nat.shiftRight_eq_div_pow]
  omega

theorem fieldNNN_toNat (op : Word) : (fieldNNN op).toNat = op.toNat % 4096 := by
  simp only [fieldNNN, BitVec.extractLsb'_toNat, Nat.shiftRight_eq_div_pow]
  omega

/-! ### The fields of an encoded word -/

section Fields
variable (p : BitVec 4) (x y n : Fin 16) (nn : Byte) (nnn : Addr12)

@[simp] theorem fieldP_nibbles : fieldP (nibbles p x y n) = p.toNat := by
  rw [fieldP_eq, nibbles_toNat]; omega
@[simp] theorem fieldX_nibbles : fieldX (nibbles p x y n) = x := by
  apply Fin.ext; rw [fieldX_val, nibbles_toNat]; omega
@[simp] theorem fieldY_nibbles : fieldY (nibbles p x y n) = y := by
  apply Fin.ext; rw [fieldY_val, nibbles_toNat]; omega
@[simp] theorem fieldN_nibbles : fieldN (nibbles p x y n) = n := by
  apply Fin.ext; rw [fieldN_val, nibbles_toNat]; omega
@[simp] theorem fieldP_wordXI : fieldP (wordXI p x nn) = p.toNat := by
  rw [fieldP_eq, wordXI_toNat]; omega
@[simp] theorem fieldX_wordXI : fieldX (wordXI p x nn) = x := by
  apply Fin.ext; rw [fieldX_val, wordXI_toNat]; omega
@[simp] theorem fieldNN_wordXI : fieldNN (wordXI p x nn) = nn := by
  apply BitVec.eq_of_toNat_eq; rw [fieldNN_toNat, wordXI_toNat]; omega
@[simp] theorem fieldP_wordA : fieldP (wordA p nnn) = p.toNat := by
  rw [fieldP_eq, wordA_toNat]; omega
@[simp] theorem fieldNNN_wordA : fieldNNN (wordA p nnn) = nnn := by
  apply BitVec.eq_of_toNat_eq; rw [fieldNNN_toNat, wordA_toNat]; omega

end Fields

/-! ### A word from its fields -/

theorem eq_nibbles {op : Word} {p : BitVec 4} (h : fieldP op = p.toNat) :
    nibbles p (fieldX op) (fieldY op) (fieldN op) = op := by
  apply BitVec.eq_of_toNat_eq
  rw [nibbles_toNat, ← h, fieldP_eq, fieldX_val, fieldY_val, fieldN_val]
  omega

theorem eq_wordXI {op : Word} {p : BitVec 4} (h : fieldP op = p.toNat) :
    wordXI p (fieldX op) (fieldNN op) = op := by
  apply BitVec.eq_of_toNat_eq
  rw [wordXI_toNat, ← h, fieldP_eq, fieldX_val, fieldNN_toNat]
  omega

theorem eq_wordA {op : Word} {p : BitVec 4} (h : fieldP op = p.toNat) :
    wordA p (fieldNNN op) = op := by
  apply BitVec.eq_of_toNat_eq
  rw [wordA_toNat, ← h, fieldP_eq, fieldNNN_toNat]
  omega

/-! ### Masks (R75) -/

theorem append_and_append {m n : Nat} (a c : BitVec m) (b d : BitVec n) :
    (a ++ b) &&& (c ++ d) = (a &&& c) ++ (b &&& d) := by
  ext k hk
  simp [BitVec.getElem_append]

/-- The primary nibble is all that the mask 0xF000 keeps. -/
theorem wordA_and_mask (p : BitVec 4) (nnn : Addr12) : wordA p nnn &&& 0xF000#16 = wordA p 0 := by
  change (p ++ nnn) &&& (BitVec.allOnes 4 ++ 0#12) = p ++ 0#12
  rw [append_and_append, BitVec.and_allOnes, BitVec.and_zero]

theorem wordXI_and_mask (p : BitVec 4) (x : Reg) (nn : Byte) :
    wordXI p x nn &&& 0xF000#16 = wordXI p 0 0 := by
  change (p ++ BitVec.ofFin (w := 4) x ++ nn) &&& (BitVec.allOnes 4 ++ 0#4 ++ 0#8) = p ++ 0#4 ++ 0#8
  rw [append_and_append, append_and_append, BitVec.and_allOnes, BitVec.and_zero, BitVec.and_zero]

/-- The mask 0xF0FF keeps the primary nibble and the function byte. -/
theorem wordXI_and_maskXF (p : BitVec 4) (x : Reg) (nn : Byte) :
    wordXI p x nn &&& 0xF0FF#16 = wordXI p 0 nn := by
  change (p ++ BitVec.ofFin (w := 4) x ++ nn) &&& (BitVec.allOnes 4 ++ 0#4 ++ BitVec.allOnes 8) = p ++ 0#4 ++ nn
  rw [append_and_append, append_and_append, BitVec.and_allOnes, BitVec.and_zero, BitVec.and_allOnes]

theorem nibbles_and_mask (p : BitVec 4) (x y n : Fin 16) :
    nibbles p x y n &&& 0xF000#16 = nibbles p 0 0 0 := by
  change (p ++ BitVec.ofFin (w := 4) x ++ BitVec.ofFin (w := 4) y ++ BitVec.ofFin (w := 4) n) &&&
    (BitVec.allOnes 4 ++ 0#4 ++ 0#4 ++ 0#4) = p ++ 0#4 ++ 0#4 ++ 0#4
  simp only [append_and_append, BitVec.and_allOnes, BitVec.and_zero]

/-- The mask 0xF00F keeps the primary nibble and the secondary opcode. -/
theorem nibbles_and_maskXY (p : BitVec 4) (x y n : Fin 16) :
    nibbles p x y n &&& 0xF00F#16 = nibbles p 0 0 n := by
  change (p ++ BitVec.ofFin (w := 4) x ++ BitVec.ofFin (w := 4) y ++ BitVec.ofFin (w := 4) n) &&&
    (BitVec.allOnes 4 ++ 0#4 ++ 0#4 ++ BitVec.allOnes 4) = p ++ 0#4 ++ 0#4 ++ BitVec.ofFin (w := 4) n
  simp only [append_and_append, BitVec.and_allOnes, BitVec.and_zero]

end Sys2Proof
end

