-- ==== Sys2Proof/Laws/State.lean ====
section
/-! SUPPORT. One lemma per field per update of the state, so that no proof unfolds a record update; and
the register file read after a write. -/

namespace Sys2Proof.Machine

section Updates
variable (s : State)

/-! ### `setV` -/

@[simp] theorem State.setV_v (x : Reg) (b : Byte) : (s.setV x b).v = s.v.set x b := rfl
@[simp] theorem State.setV_i (x : Reg) (b : Byte) : (s.setV x b).i = s.i := rfl
@[simp] theorem State.setV_pc (x : Reg) (b : Byte) : (s.setV x b).pc = s.pc := rfl
@[simp] theorem State.setV_stack (x : Reg) (b : Byte) : (s.setV x b).stack = s.stack := rfl
@[simp] theorem State.setV_dt (x : Reg) (b : Byte) : (s.setV x b).dt = s.dt := rfl
@[simp] theorem State.setV_st (x : Reg) (b : Byte) : (s.setV x b).st = s.st := rfl
@[simp] theorem State.setV_mem (x : Reg) (b : Byte) : (s.setV x b).mem = s.mem := rfl
@[simp] theorem State.setV_fb (x : Reg) (b : Byte) : (s.setV x b).fb = s.fb := rfl
@[simp] theorem State.setV_keys (x : Reg) (b : Byte) : (s.setV x b).keys = s.keys := rfl
@[simp] theorem State.setV_halted (x : Reg) (b : Byte) : (s.setV x b).halted = s.halted := rfl
@[simp] theorem State.setV_faultCause (x : Reg) (b : Byte) : (s.setV x b).faultCause = s.faultCause := rfl
@[simp] theorem State.setV_faultOpcode (x : Reg) (b : Byte) : (s.setV x b).faultOpcode = s.faultOpcode := rfl
@[simp] theorem State.setV_faultPc (x : Reg) (b : Byte) : (s.setV x b).faultPc = s.faultPc := rfl
@[simp] theorem State.setV_rndSupply (x : Reg) (b : Byte) : (s.setV x b).rndSupply = s.rndSupply := rfl
@[simp] theorem State.setV_rndDraws (x : Reg) (b : Byte) : (s.setV x b).rndDraws = s.rndDraws := rfl

/-! ### `setI` -/

@[simp] theorem State.setI_v (w : Word) : (s.setI w).v = s.v := rfl
@[simp] theorem State.setI_i (w : Word) : (s.setI w).i = w := rfl
@[simp] theorem State.setI_pc (w : Word) : (s.setI w).pc = s.pc := rfl
@[simp] theorem State.setI_stack (w : Word) : (s.setI w).stack = s.stack := rfl
@[simp] theorem State.setI_dt (w : Word) : (s.setI w).dt = s.dt := rfl
@[simp] theorem State.setI_st (w : Word) : (s.setI w).st = s.st := rfl
@[simp] theorem State.setI_mem (w : Word) : (s.setI w).mem = s.mem := rfl
@[simp] theorem State.setI_fb (w : Word) : (s.setI w).fb = s.fb := rfl
@[simp] theorem State.setI_keys (w : Word) : (s.setI w).keys = s.keys := rfl
@[simp] theorem State.setI_halted (w : Word) : (s.setI w).halted = s.halted := rfl
@[simp] theorem State.setI_faultCause (w : Word) : (s.setI w).faultCause = s.faultCause := rfl
@[simp] theorem State.setI_faultOpcode (w : Word) : (s.setI w).faultOpcode = s.faultOpcode := rfl
@[simp] theorem State.setI_faultPc (w : Word) : (s.setI w).faultPc = s.faultPc := rfl
@[simp] theorem State.setI_rndSupply (w : Word) : (s.setI w).rndSupply = s.rndSupply := rfl
@[simp] theorem State.setI_rndDraws (w : Word) : (s.setI w).rndDraws = s.rndDraws := rfl

/-! ### `setPc` -/

@[simp] theorem State.setPc_v (w : Word) : (s.setPc w).v = s.v := rfl
@[simp] theorem State.setPc_i (w : Word) : (s.setPc w).i = s.i := rfl
@[simp] theorem State.setPc_pc (w : Word) : (s.setPc w).pc = w := rfl
@[simp] theorem State.setPc_stack (w : Word) : (s.setPc w).stack = s.stack := rfl
@[simp] theorem State.setPc_dt (w : Word) : (s.setPc w).dt = s.dt := rfl
@[simp] theorem State.setPc_st (w : Word) : (s.setPc w).st = s.st := rfl
@[simp] theorem State.setPc_mem (w : Word) : (s.setPc w).mem = s.mem := rfl
@[simp] theorem State.setPc_fb (w : Word) : (s.setPc w).fb = s.fb := rfl
@[simp] theorem State.setPc_keys (w : Word) : (s.setPc w).keys = s.keys := rfl
@[simp] theorem State.setPc_halted (w : Word) : (s.setPc w).halted = s.halted := rfl
@[simp] theorem State.setPc_faultCause (w : Word) : (s.setPc w).faultCause = s.faultCause := rfl
@[simp] theorem State.setPc_faultOpcode (w : Word) : (s.setPc w).faultOpcode = s.faultOpcode := rfl
@[simp] theorem State.setPc_faultPc (w : Word) : (s.setPc w).faultPc = s.faultPc := rfl
@[simp] theorem State.setPc_rndSupply (w : Word) : (s.setPc w).rndSupply = s.rndSupply := rfl
@[simp] theorem State.setPc_rndDraws (w : Word) : (s.setPc w).rndDraws = s.rndDraws := rfl

/-! ### `setDt` -/

@[simp] theorem State.setDt_v (b : Byte) : (s.setDt b).v = s.v := rfl
@[simp] theorem State.setDt_i (b : Byte) : (s.setDt b).i = s.i := rfl
@[simp] theorem State.setDt_pc (b : Byte) : (s.setDt b).pc = s.pc := rfl
@[simp] theorem State.setDt_stack (b : Byte) : (s.setDt b).stack = s.stack := rfl
@[simp] theorem State.setDt_dt (b : Byte) : (s.setDt b).dt = b := rfl
@[simp] theorem State.setDt_st (b : Byte) : (s.setDt b).st = s.st := rfl
@[simp] theorem State.setDt_mem (b : Byte) : (s.setDt b).mem = s.mem := rfl
@[simp] theorem State.setDt_fb (b : Byte) : (s.setDt b).fb = s.fb := rfl
@[simp] theorem State.setDt_keys (b : Byte) : (s.setDt b).keys = s.keys := rfl
@[simp] theorem State.setDt_halted (b : Byte) : (s.setDt b).halted = s.halted := rfl
@[simp] theorem State.setDt_faultCause (b : Byte) : (s.setDt b).faultCause = s.faultCause := rfl
@[simp] theorem State.setDt_faultOpcode (b : Byte) : (s.setDt b).faultOpcode = s.faultOpcode := rfl
@[simp] theorem State.setDt_faultPc (b : Byte) : (s.setDt b).faultPc = s.faultPc := rfl
@[simp] theorem State.setDt_rndSupply (b : Byte) : (s.setDt b).rndSupply = s.rndSupply := rfl
@[simp] theorem State.setDt_rndDraws (b : Byte) : (s.setDt b).rndDraws = s.rndDraws := rfl

/-! ### `setSt` -/

@[simp] theorem State.setSt_v (b : Byte) : (s.setSt b).v = s.v := rfl
@[simp] theorem State.setSt_i (b : Byte) : (s.setSt b).i = s.i := rfl
@[simp] theorem State.setSt_pc (b : Byte) : (s.setSt b).pc = s.pc := rfl
@[simp] theorem State.setSt_stack (b : Byte) : (s.setSt b).stack = s.stack := rfl
@[simp] theorem State.setSt_dt (b : Byte) : (s.setSt b).dt = s.dt := rfl
@[simp] theorem State.setSt_st (b : Byte) : (s.setSt b).st = b := rfl
@[simp] theorem State.setSt_mem (b : Byte) : (s.setSt b).mem = s.mem := rfl
@[simp] theorem State.setSt_fb (b : Byte) : (s.setSt b).fb = s.fb := rfl
@[simp] theorem State.setSt_keys (b : Byte) : (s.setSt b).keys = s.keys := rfl
@[simp] theorem State.setSt_halted (b : Byte) : (s.setSt b).halted = s.halted := rfl
@[simp] theorem State.setSt_faultCause (b : Byte) : (s.setSt b).faultCause = s.faultCause := rfl
@[simp] theorem State.setSt_faultOpcode (b : Byte) : (s.setSt b).faultOpcode = s.faultOpcode := rfl
@[simp] theorem State.setSt_faultPc (b : Byte) : (s.setSt b).faultPc = s.faultPc := rfl
@[simp] theorem State.setSt_rndSupply (b : Byte) : (s.setSt b).rndSupply = s.rndSupply := rfl
@[simp] theorem State.setSt_rndDraws (b : Byte) : (s.setSt b).rndDraws = s.rndDraws := rfl

/-! ### `setMem` -/

@[simp] theorem State.setMem_v (m : Memory) : (s.setMem m).v = s.v := rfl
@[simp] theorem State.setMem_i (m : Memory) : (s.setMem m).i = s.i := rfl
@[simp] theorem State.setMem_pc (m : Memory) : (s.setMem m).pc = s.pc := rfl
@[simp] theorem State.setMem_stack (m : Memory) : (s.setMem m).stack = s.stack := rfl
@[simp] theorem State.setMem_dt (m : Memory) : (s.setMem m).dt = s.dt := rfl
@[simp] theorem State.setMem_st (m : Memory) : (s.setMem m).st = s.st := rfl
@[simp] theorem State.setMem_mem (m : Memory) : (s.setMem m).mem = m := rfl
@[simp] theorem State.setMem_fb (m : Memory) : (s.setMem m).fb = s.fb := rfl
@[simp] theorem State.setMem_keys (m : Memory) : (s.setMem m).keys = s.keys := rfl
@[simp] theorem State.setMem_halted (m : Memory) : (s.setMem m).halted = s.halted := rfl
@[simp] theorem State.setMem_faultCause (m : Memory) : (s.setMem m).faultCause = s.faultCause := rfl
@[simp] theorem State.setMem_faultOpcode (m : Memory) : (s.setMem m).faultOpcode = s.faultOpcode := rfl
@[simp] theorem State.setMem_faultPc (m : Memory) : (s.setMem m).faultPc = s.faultPc := rfl
@[simp] theorem State.setMem_rndSupply (m : Memory) : (s.setMem m).rndSupply = s.rndSupply := rfl
@[simp] theorem State.setMem_rndDraws (m : Memory) : (s.setMem m).rndDraws = s.rndDraws := rfl

/-! ### `setFb` -/

@[simp] theorem State.setFb_v (f : Frame) : (s.setFb f).v = s.v := rfl
@[simp] theorem State.setFb_i (f : Frame) : (s.setFb f).i = s.i := rfl
@[simp] theorem State.setFb_pc (f : Frame) : (s.setFb f).pc = s.pc := rfl
@[simp] theorem State.setFb_stack (f : Frame) : (s.setFb f).stack = s.stack := rfl
@[simp] theorem State.setFb_dt (f : Frame) : (s.setFb f).dt = s.dt := rfl
@[simp] theorem State.setFb_st (f : Frame) : (s.setFb f).st = s.st := rfl
@[simp] theorem State.setFb_mem (f : Frame) : (s.setFb f).mem = s.mem := rfl
@[simp] theorem State.setFb_fb (f : Frame) : (s.setFb f).fb = f := rfl
@[simp] theorem State.setFb_keys (f : Frame) : (s.setFb f).keys = s.keys := rfl
@[simp] theorem State.setFb_halted (f : Frame) : (s.setFb f).halted = s.halted := rfl
@[simp] theorem State.setFb_faultCause (f : Frame) : (s.setFb f).faultCause = s.faultCause := rfl
@[simp] theorem State.setFb_faultOpcode (f : Frame) : (s.setFb f).faultOpcode = s.faultOpcode := rfl
@[simp] theorem State.setFb_faultPc (f : Frame) : (s.setFb f).faultPc = s.faultPc := rfl
@[simp] theorem State.setFb_rndSupply (f : Frame) : (s.setFb f).rndSupply = s.rndSupply := rfl
@[simp] theorem State.setFb_rndDraws (f : Frame) : (s.setFb f).rndDraws = s.rndDraws := rfl

/-! ### `push` -/

@[simp] theorem State.push_v (w : Word) : (s.push w).v = s.v := rfl
@[simp] theorem State.push_i (w : Word) : (s.push w).i = s.i := rfl
@[simp] theorem State.push_pc (w : Word) : (s.push w).pc = s.pc := rfl
@[simp] theorem State.push_stack (w : Word) : (s.push w).stack = s.stack ++ [w] := rfl
@[simp] theorem State.push_dt (w : Word) : (s.push w).dt = s.dt := rfl
@[simp] theorem State.push_st (w : Word) : (s.push w).st = s.st := rfl
@[simp] theorem State.push_mem (w : Word) : (s.push w).mem = s.mem := rfl
@[simp] theorem State.push_fb (w : Word) : (s.push w).fb = s.fb := rfl
@[simp] theorem State.push_keys (w : Word) : (s.push w).keys = s.keys := rfl
@[simp] theorem State.push_halted (w : Word) : (s.push w).halted = s.halted := rfl
@[simp] theorem State.push_faultCause (w : Word) : (s.push w).faultCause = s.faultCause := rfl
@[simp] theorem State.push_faultOpcode (w : Word) : (s.push w).faultOpcode = s.faultOpcode := rfl
@[simp] theorem State.push_faultPc (w : Word) : (s.push w).faultPc = s.faultPc := rfl
@[simp] theorem State.push_rndSupply (w : Word) : (s.push w).rndSupply = s.rndSupply := rfl
@[simp] theorem State.push_rndDraws (w : Word) : (s.push w).rndDraws = s.rndDraws := rfl

/-! ### `advancePc` -/

@[simp] theorem State.advancePc_v : s.advancePc.v = s.v := rfl
@[simp] theorem State.advancePc_i : s.advancePc.i = s.i := rfl
@[simp] theorem State.advancePc_pc : s.advancePc.pc = s.pc + Config.insnBytes := rfl
@[simp] theorem State.advancePc_stack : s.advancePc.stack = s.stack := rfl
@[simp] theorem State.advancePc_dt : s.advancePc.dt = s.dt := rfl
@[simp] theorem State.advancePc_st : s.advancePc.st = s.st := rfl
@[simp] theorem State.advancePc_mem : s.advancePc.mem = s.mem := rfl
@[simp] theorem State.advancePc_fb : s.advancePc.fb = s.fb := rfl
@[simp] theorem State.advancePc_keys : s.advancePc.keys = s.keys := rfl
@[simp] theorem State.advancePc_halted : s.advancePc.halted = s.halted := rfl
@[simp] theorem State.advancePc_faultCause : s.advancePc.faultCause = s.faultCause := rfl
@[simp] theorem State.advancePc_faultOpcode : s.advancePc.faultOpcode = s.faultOpcode := rfl
@[simp] theorem State.advancePc_faultPc : s.advancePc.faultPc = s.faultPc := rfl
@[simp] theorem State.advancePc_rndSupply : s.advancePc.rndSupply = s.rndSupply := rfl
@[simp] theorem State.advancePc_rndDraws : s.advancePc.rndDraws = s.rndDraws := rfl

/-! ### `raiseFault` -/

@[simp] theorem State.raiseFault_v (c : FaultCause) (op pc0 : Word) : (s.raiseFault c op pc0).v = s.v := rfl
@[simp] theorem State.raiseFault_i (c : FaultCause) (op pc0 : Word) : (s.raiseFault c op pc0).i = s.i := rfl
@[simp] theorem State.raiseFault_pc (c : FaultCause) (op pc0 : Word) : (s.raiseFault c op pc0).pc = s.pc := rfl
@[simp] theorem State.raiseFault_stack (c : FaultCause) (op pc0 : Word) : (s.raiseFault c op pc0).stack = s.stack := rfl
@[simp] theorem State.raiseFault_dt (c : FaultCause) (op pc0 : Word) : (s.raiseFault c op pc0).dt = s.dt := rfl
@[simp] theorem State.raiseFault_st (c : FaultCause) (op pc0 : Word) : (s.raiseFault c op pc0).st = s.st := rfl
@[simp] theorem State.raiseFault_mem (c : FaultCause) (op pc0 : Word) : (s.raiseFault c op pc0).mem = s.mem := rfl
@[simp] theorem State.raiseFault_fb (c : FaultCause) (op pc0 : Word) : (s.raiseFault c op pc0).fb = s.fb := rfl
@[simp] theorem State.raiseFault_keys (c : FaultCause) (op pc0 : Word) : (s.raiseFault c op pc0).keys = s.keys := rfl
@[simp] theorem State.raiseFault_halted (c : FaultCause) (op pc0 : Word) : (s.raiseFault c op pc0).halted = true := rfl
@[simp] theorem State.raiseFault_faultCause (c : FaultCause) (op pc0 : Word) : (s.raiseFault c op pc0).faultCause = c := rfl
@[simp] theorem State.raiseFault_faultOpcode (c : FaultCause) (op pc0 : Word) : (s.raiseFault c op pc0).faultOpcode = op := rfl
@[simp] theorem State.raiseFault_faultPc (c : FaultCause) (op pc0 : Word) : (s.raiseFault c op pc0).faultPc = pc0 := rfl
@[simp] theorem State.raiseFault_rndSupply (c : FaultCause) (op pc0 : Word) : (s.raiseFault c op pc0).rndSupply = s.rndSupply := rfl
@[simp] theorem State.raiseFault_rndDraws (c : FaultCause) (op pc0 : Word) : (s.raiseFault c op pc0).rndDraws = s.rndDraws := rfl

/-! ### `setResultThenFlag` -/

@[simp] theorem State.setResultThenFlag_v (x : Reg) (r f : Byte) : (s.setResultThenFlag x r f).v = (s.v.set x r).set VF f := rfl
@[simp] theorem State.setResultThenFlag_i (x : Reg) (r f : Byte) : (s.setResultThenFlag x r f).i = s.i := rfl
@[simp] theorem State.setResultThenFlag_pc (x : Reg) (r f : Byte) : (s.setResultThenFlag x r f).pc = s.pc := rfl
@[simp] theorem State.setResultThenFlag_stack (x : Reg) (r f : Byte) : (s.setResultThenFlag x r f).stack = s.stack := rfl
@[simp] theorem State.setResultThenFlag_dt (x : Reg) (r f : Byte) : (s.setResultThenFlag x r f).dt = s.dt := rfl
@[simp] theorem State.setResultThenFlag_st (x : Reg) (r f : Byte) : (s.setResultThenFlag x r f).st = s.st := rfl
@[simp] theorem State.setResultThenFlag_mem (x : Reg) (r f : Byte) : (s.setResultThenFlag x r f).mem = s.mem := rfl
@[simp] theorem State.setResultThenFlag_fb (x : Reg) (r f : Byte) : (s.setResultThenFlag x r f).fb = s.fb := rfl
@[simp] theorem State.setResultThenFlag_keys (x : Reg) (r f : Byte) : (s.setResultThenFlag x r f).keys = s.keys := rfl
@[simp] theorem State.setResultThenFlag_halted (x : Reg) (r f : Byte) : (s.setResultThenFlag x r f).halted = s.halted := rfl
@[simp] theorem State.setResultThenFlag_faultCause (x : Reg) (r f : Byte) : (s.setResultThenFlag x r f).faultCause = s.faultCause := rfl
@[simp] theorem State.setResultThenFlag_faultOpcode (x : Reg) (r f : Byte) : (s.setResultThenFlag x r f).faultOpcode = s.faultOpcode := rfl
@[simp] theorem State.setResultThenFlag_faultPc (x : Reg) (r f : Byte) : (s.setResultThenFlag x r f).faultPc = s.faultPc := rfl
@[simp] theorem State.setResultThenFlag_rndSupply (x : Reg) (r f : Byte) : (s.setResultThenFlag x r f).rndSupply = s.rndSupply := rfl
@[simp] theorem State.setResultThenFlag_rndDraws (x : Reg) (r f : Byte) : (s.setResultThenFlag x r f).rndDraws = s.rndDraws := rfl

/-! ### `skipIf` -/

@[simp] theorem State.skipIf_v (c : Bool) : (s.skipIf c).v = s.v := by cases c <;> rfl
@[simp] theorem State.skipIf_i (c : Bool) : (s.skipIf c).i = s.i := by cases c <;> rfl
@[simp] theorem State.skipIf_pc (c : Bool) : (s.skipIf c).pc = if c then s.pc + Config.insnBytes else s.pc := by cases c <;> rfl
@[simp] theorem State.skipIf_stack (c : Bool) : (s.skipIf c).stack = s.stack := by cases c <;> rfl
@[simp] theorem State.skipIf_dt (c : Bool) : (s.skipIf c).dt = s.dt := by cases c <;> rfl
@[simp] theorem State.skipIf_st (c : Bool) : (s.skipIf c).st = s.st := by cases c <;> rfl
@[simp] theorem State.skipIf_mem (c : Bool) : (s.skipIf c).mem = s.mem := by cases c <;> rfl
@[simp] theorem State.skipIf_fb (c : Bool) : (s.skipIf c).fb = s.fb := by cases c <;> rfl
@[simp] theorem State.skipIf_keys (c : Bool) : (s.skipIf c).keys = s.keys := by cases c <;> rfl
@[simp] theorem State.skipIf_halted (c : Bool) : (s.skipIf c).halted = s.halted := by cases c <;> rfl
@[simp] theorem State.skipIf_faultCause (c : Bool) : (s.skipIf c).faultCause = s.faultCause := by cases c <;> rfl
@[simp] theorem State.skipIf_faultOpcode (c : Bool) : (s.skipIf c).faultOpcode = s.faultOpcode := by cases c <;> rfl
@[simp] theorem State.skipIf_faultPc (c : Bool) : (s.skipIf c).faultPc = s.faultPc := by cases c <;> rfl
@[simp] theorem State.skipIf_rndSupply (c : Bool) : (s.skipIf c).rndSupply = s.rndSupply := by cases c <;> rfl
@[simp] theorem State.skipIf_rndDraws (c : Bool) : (s.skipIf c).rndDraws = s.rndDraws := by cases c <;> rfl

/-! ### `rndUsed` -/

@[simp] theorem State.rndUsed_v : s.rndUsed.v = s.v := by unfold State.rndUsed; split <;> simp_all
@[simp] theorem State.rndUsed_i : s.rndUsed.i = s.i := by unfold State.rndUsed; split <;> simp_all
@[simp] theorem State.rndUsed_pc : s.rndUsed.pc = s.pc := by unfold State.rndUsed; split <;> simp_all
@[simp] theorem State.rndUsed_stack : s.rndUsed.stack = s.stack := by unfold State.rndUsed; split <;> simp_all
@[simp] theorem State.rndUsed_dt : s.rndUsed.dt = s.dt := by unfold State.rndUsed; split <;> simp_all
@[simp] theorem State.rndUsed_st : s.rndUsed.st = s.st := by unfold State.rndUsed; split <;> simp_all
@[simp] theorem State.rndUsed_mem : s.rndUsed.mem = s.mem := by unfold State.rndUsed; split <;> simp_all
@[simp] theorem State.rndUsed_fb : s.rndUsed.fb = s.fb := by unfold State.rndUsed; split <;> simp_all
@[simp] theorem State.rndUsed_keys : s.rndUsed.keys = s.keys := by unfold State.rndUsed; split <;> simp_all
@[simp] theorem State.rndUsed_halted : s.rndUsed.halted = s.halted := by unfold State.rndUsed; split <;> simp_all
@[simp] theorem State.rndUsed_faultCause : s.rndUsed.faultCause = s.faultCause := by unfold State.rndUsed; split <;> simp_all
@[simp] theorem State.rndUsed_faultOpcode : s.rndUsed.faultOpcode = s.faultOpcode := by unfold State.rndUsed; split <;> simp_all
@[simp] theorem State.rndUsed_faultPc : s.rndUsed.faultPc = s.faultPc := by unfold State.rndUsed; split <;> simp_all
@[simp] theorem State.rndUsed_rndSupply : s.rndUsed.rndSupply = s.rndSupply.tail := by unfold State.rndUsed; split <;> simp_all
@[simp] theorem State.rndUsed_rndDraws : s.rndUsed.rndDraws = if s.rndSupply = [] then s.rndDraws + 1 else s.rndDraws := by unfold State.rndUsed; split <;> simp_all

/-! ### `keySet` -/

@[simp] theorem State.keySet_v (k : Int) (d : Bool) : (s.keySet k d).v = s.v := by unfold State.keySet; split <;> rfl
@[simp] theorem State.keySet_i (k : Int) (d : Bool) : (s.keySet k d).i = s.i := by unfold State.keySet; split <;> rfl
@[simp] theorem State.keySet_pc (k : Int) (d : Bool) : (s.keySet k d).pc = s.pc := by unfold State.keySet; split <;> rfl
@[simp] theorem State.keySet_stack (k : Int) (d : Bool) : (s.keySet k d).stack = s.stack := by unfold State.keySet; split <;> rfl
@[simp] theorem State.keySet_dt (k : Int) (d : Bool) : (s.keySet k d).dt = s.dt := by unfold State.keySet; split <;> rfl
@[simp] theorem State.keySet_st (k : Int) (d : Bool) : (s.keySet k d).st = s.st := by unfold State.keySet; split <;> rfl
@[simp] theorem State.keySet_mem (k : Int) (d : Bool) : (s.keySet k d).mem = s.mem := by unfold State.keySet; split <;> rfl
@[simp] theorem State.keySet_fb (k : Int) (d : Bool) : (s.keySet k d).fb = s.fb := by unfold State.keySet; split <;> rfl
@[simp] theorem State.keySet_halted (k : Int) (d : Bool) : (s.keySet k d).halted = s.halted := by unfold State.keySet; split <;> rfl
@[simp] theorem State.keySet_faultCause (k : Int) (d : Bool) : (s.keySet k d).faultCause = s.faultCause := by unfold State.keySet; split <;> rfl
@[simp] theorem State.keySet_faultOpcode (k : Int) (d : Bool) : (s.keySet k d).faultOpcode = s.faultOpcode := by unfold State.keySet; split <;> rfl
@[simp] theorem State.keySet_faultPc (k : Int) (d : Bool) : (s.keySet k d).faultPc = s.faultPc := by unfold State.keySet; split <;> rfl
@[simp] theorem State.keySet_rndSupply (k : Int) (d : Bool) : (s.keySet k d).rndSupply = s.rndSupply := by unfold State.keySet; split <;> rfl
@[simp] theorem State.keySet_rndDraws (k : Int) (d : Bool) : (s.keySet k d).rndDraws = s.rndDraws := by unfold State.keySet; split <;> rfl

end Updates

/-! ### The register file -/

section Registers
variable (s : State)

/-- `V[y]` after `V[x] <- b`. -/
@[simp] theorem State.getV_setV (x y : Reg) (b : Byte) :
    (s.setV x b).getV y = if y = x then b else s.getV y := by
  simp only [State.getV, State.setV, Fin.getElem_fin, Vector.getElem_set]
  by_cases h : y = x
  · simp [h]
  · simp [h, Fin.val_inj, Ne.symm h]

/-- `V[y]` after a flag-writing instruction: the flag wins in VF (R95). -/
@[simp] theorem State.getV_setResultThenFlag (x y : Reg) (r f : Byte) :
    (s.setResultThenFlag x r f).getV y = if y = VF then f else if y = x then r else s.getV y := by
  simp [State.setResultThenFlag]

@[simp] theorem State.getV_setI (w : Word) (y : Reg) : (s.setI w).getV y = s.getV y := rfl
@[simp] theorem State.getV_setPc (w : Word) (y : Reg) : (s.setPc w).getV y = s.getV y := rfl
@[simp] theorem State.getV_setDt (b : Byte) (y : Reg) : (s.setDt b).getV y = s.getV y := rfl
@[simp] theorem State.getV_setSt (b : Byte) (y : Reg) : (s.setSt b).getV y = s.getV y := rfl
@[simp] theorem State.getV_setMem (m : Memory) (y : Reg) : (s.setMem m).getV y = s.getV y := rfl
@[simp] theorem State.getV_setFb (f : Frame) (y : Reg) : (s.setFb f).getV y = s.getV y := rfl
@[simp] theorem State.getV_push (w : Word) (y : Reg) : (s.push w).getV y = s.getV y := rfl
@[simp] theorem State.getV_advancePc (y : Reg) : s.advancePc.getV y = s.getV y := rfl
@[simp] theorem State.getV_raiseFault (c : FaultCause) (op pc0 : Word) (y : Reg) :
    (s.raiseFault c op pc0).getV y = s.getV y := rfl
@[simp] theorem State.getV_skipIf (c : Bool) (y : Reg) : (s.skipIf c).getV y = s.getV y := by
  simp [State.getV]
@[simp] theorem State.getV_rndUsed (y : Reg) : s.rndUsed.getV y = s.getV y := by
  simp [State.getV]
@[simp] theorem State.getV_keySet (k : Int) (d : Bool) (y : Reg) : (s.keySet k d).getV y = s.getV y := by
  simp [State.getV]

/-- A register file is known by its sixteen registers. -/
theorem State.v_ext {s t : State} (h : ∀ r : Reg, s.getV r = t.getV r) : s.v = t.v :=
  Vector.ext fun k hk => h ⟨k, hk⟩

/-- Undoing the advance of the fetch: the address an instruction was fetched from (R19). -/
@[simp] theorem State.pc0_advancePc : s.advancePc.pc0 = s.pc := by
  simp [State.pc0]

end Registers

end Sys2Proof.Machine
end

