-- ==== Sys2Proof/Laws/Memory.lean ====
section
/-! SUPPORT. The laws of memory: a read after a write, and that every operation keeps the canonical
form. Provers cite these and unfold no memory operation. -/

namespace Sys2Proof.Machine

namespace Memory

/-- The reset content beyond the font is zero (R35, R47). -/
theorem unlisted_of_font_le {a : Nat} (h : 80 ≤ a) : unlisted a = 0 := by
  have hl : Config.font.length = 80 := by decide
  simp [unlisted, List.getElem?_eq_none (show Config.font.length ≤ a by omega)]

/-! ### Cells -/

@[simp] theorem cell_nil (a : Nat) : cell [] a = unlisted a := rfl

@[simp] theorem cell_cons (k : Nat) (b : Byte) (m : Memory) (a : Nat) :
    cell ((k, b) :: m) a = if k = a then b else cell m a := rfl

theorem cell_drop (m : Memory) (a k : Nat) :
    (m.drop a).cell k = if k = a then unlisted k else m.cell k := by
  induction m with
  | nil => simp [drop]
  | cons c m ih =>
    obtain ⟨j, b⟩ := c
    simp only [drop, List.filter_cons] at ih ⊢
    by_cases hj : j = a
    · simp only [hj, ne_eq, not_true_eq_false, decide_false, Bool.false_eq_true, if_false, ih, cell_cons]
      split <;> simp_all [eq_comm]
    · simp only [ne_eq, hj, not_false_eq_true, decide_true, if_true, cell_cons, ih]
      by_cases hk : j = k
      · simp [hk, show k ≠ a by omega]
      · simp [hk]

theorem cell_insert (m : Memory) (a : Nat) (b : Byte) (k : Nat) (h : ∀ c ∈ m, c.1 ≠ a) :
    (m.insert a b).cell k = if k = a then b else m.cell k := by
  induction m with
  | nil => simp [insert, eq_comm]
  | cons c m ih =>
    obtain ⟨j, d⟩ := c
    have hj : j ≠ a := h (j, d) (by simp)
    have ih := ih fun c hc => h c (by simp [hc])
    unfold insert
    split
    · simp [eq_comm]
    · simp only [cell_cons, ih]
      by_cases hk : j = k
      · simp [hk, show k ≠ a by omega]
      · simp [hk]

/-- The cell read after a put: the new byte at `a`, every other cell as before. -/
theorem cell_put (m : Memory) (a : Nat) (b : Byte) (k : Nat) :
    (m.put a b).cell k = if k = a then b else m.cell k := by
  unfold put
  split
  next h => rw [cell_drop]; split <;> simp_all
  next =>
    rw [cell_insert _ _ _ _ (by simp [drop])]
    split <;> simp_all [cell_drop]

/-! ### Reads and writes by address (R40, R41) -/

theorem read_of_lt {m : Memory} {a : Word} (h : a.toNat < 4096) : m.read a = m.cell a.toNat :=
  if_pos h

/-- Where no cell is, a read gives 0 (R40). -/
theorem read_of_ge {m : Memory} {a : Word} (h : 4096 ≤ a.toNat) : m.read a = 0 :=
  if_neg (Nat.not_lt.2 h)

/-- Where no cell is, a write is dropped (R41). -/
theorem write_of_ge {m : Memory} {a : Word} (b : Byte) (h : 4096 ≤ a.toNat) : m.write a b = m :=
  if_neg (Nat.not_lt.2 h)

/-- A read after a write: the new byte at the address written if a cell is there, every other address as
before. -/
theorem read_write (m : Memory) (a k : Word) (b : Byte) :
    (m.write a b).read k = if k = a ∧ a.toNat < 4096 then b else m.read k := by
  unfold write read
  by_cases ha : a.toNat < Config.memSize
  · simp only [ha, if_true, cell_put, BitVec.toNat_inj]
    by_cases hk : k = a
    · simp_all [Config.memSize]
    · simp [hk]
  · simp [show ¬ a.toNat < 4096 from ha, ha]

theorem read_write_self {m : Memory} {a : Word} (b : Byte) (h : a.toNat < 4096) :
    (m.write a b).read a = b := by simp [read_write, h]

theorem read_write_of_ne {m : Memory} {a k : Word} (b : Byte) (h : k ≠ a) :
    (m.write a b).read k = m.read k := by simp [read_write, h]

/-! ### The canonical form -/

theorem wf_nil : wf ([] : Memory) := by simp [wf]

theorem wf_drop {m : Memory} (h : m.wf) (a : Nat) : (m.drop a).wf :=
  ⟨h.1.filter _, fun c hc => h.2 c (List.mem_of_mem_filter hc)⟩

theorem mem_insert {m : Memory} {a : Nat} {b : Byte} {c : Host.Cell} :
    c ∈ m.insert a b ↔ c = (a, b) ∨ c ∈ m := by
  induction m with
  | nil => simp [insert]
  | cons d m ih =>
    obtain ⟨k, e⟩ := d
    unfold insert
    split
    · simp
    · simp only [List.mem_cons, ih]
      tauto

theorem rising_insert {m : Memory} {a : Nat} (b : Byte) (h : m.Pairwise (fun c d => c.1 < d.1))
    (ha : ∀ c ∈ m, c.1 ≠ a) : (m.insert a b).Pairwise (fun c d => c.1 < d.1) := by
  induction m with
  | nil => simp [insert]
  | cons d m ih =>
    obtain ⟨k, e⟩ := d
    obtain ⟨hk, hm⟩ := List.pairwise_cons.1 h
    have hka : k ≠ a := ha (k, e) (by simp)
    unfold insert
    split
    next hlt =>
      refine List.pairwise_cons.2 ⟨fun c hc => ?_, h⟩
      rcases List.mem_cons.1 hc with rfl | hc
      · exact hlt
      · exact hlt.trans (hk c hc)
    next hge =>
      refine List.pairwise_cons.2 ⟨fun c hc => ?_, ih hm fun c hc => ha c (by simp [hc])⟩
      rcases mem_insert.1 hc with rfl | hc
      · exact Nat.lt_of_le_of_ne (Nat.not_lt.1 hge) hka
      · exact hk c hc

theorem wf_put {m : Memory} (h : m.wf) {a : Nat} (ha : a < 4096) (b : Byte) : (m.put a b).wf := by
  unfold put
  split
  · exact wf_drop h a
  next hb =>
    refine ⟨rising_insert b (wf_drop h a).1 (by simp [drop]), fun c hc => ?_⟩
    rcases mem_insert.1 hc with rfl | hc
    · exact ⟨ha, hb⟩
    · exact (wf_drop h a).2 c hc

theorem wf_write {m : Memory} (h : m.wf) (a : Word) (b : Byte) : (m.write a b).wf := by
  unfold write
  split
  next ha => exact wf_put h ha b
  · exact h

theorem wf_load {m : Memory} (h : m.wf) (a : Nat) (bytes : List Byte) : (m.load a bytes).wf := by
  induction bytes generalizing m a with
  | nil => exact h
  | cons b bytes ih =>
    unfold load
    split
    next ha => exact ih (wf_put h ha b) _
    · exact ih h _

/-! ### Program load (R50) -/

/-- The cell after a load from `a` on: byte `k - a` of the sequence where it has one and a cell is there,
else as before. -/
theorem cell_load (m : Memory) (a : Nat) (bytes : List Byte) (k : Nat) :
    (m.load a bytes).cell k =
      if h : a ≤ k ∧ k - a < bytes.length ∧ k < 4096 then bytes[k - a] else m.cell k := by
  induction bytes generalizing m a with
  | nil => simp [load]
  | cons b bytes ih =>
    unfold load
    rw [ih]
    rcases Nat.lt_trichotomy k a with hlt | rfl | hgt
    · have hput : (if a < Config.memSize then m.put a b else m).cell k = m.cell k := by
        split
        · rw [cell_put, if_neg (by omega)]
        · rfl
      rw [dif_neg (by omega), dif_neg (by omega), hput]
    · rw [dif_neg (by omega)]
      by_cases hk : k < 4096
      · simp [Config.memSize, hk, cell_put]
      · simp [Config.memSize, hk]
    · have hput : (if a < Config.memSize then m.put a b else m).cell k = m.cell k := by
        split
        · rw [cell_put, if_neg (by omega)]
        · rfl
      rw [hput]
      by_cases hk : k - a < bytes.length + 1 ∧ k < 4096
      · rw [dif_pos (by omega), dif_pos (by simp; omega)]
        have : k - a = (k - (a + 1)) + 1 := by omega
        simp [this]
      · rw [dif_neg (by omega), dif_neg (by simp; omega)]

/-! ### Equal contents, equal data -/

theorem cell_of_forall_ne {m : Memory} {a : Nat} (h : ∀ c ∈ m, c.1 ≠ a) : m.cell a = unlisted a := by
  induction m with
  | nil => rfl
  | cons c m ih =>
    rw [← Prod.eta c, cell_cons, if_neg (h c (by simp))]
    exact ih fun d hd => h d (by simp [hd])

theorem cell_of_mem {m : Memory} (h : m.Pairwise (fun c d => c.1 < d.1)) {c : Host.Cell}
    (hc : c ∈ m) : m.cell c.1 = c.2 := by
  induction m with
  | nil => simp at hc
  | cons d m ih =>
    obtain ⟨hd, hm⟩ := List.pairwise_cons.1 h
    rw [← Prod.eta d, cell_cons]
    rcases List.mem_cons.1 hc with rfl | hc
    · simp
    · rw [if_neg (Nat.ne_of_lt (hd c hc)), ih hm hc]

end Memory

end Sys2Proof.Machine
end

