-- ==== Sys2Proof/Laws/Display.lean ====
section
/-! SUPPORT. What the display primitives and the sprite blit do to each pixel and to the collision flag. -/

namespace Sys2Proof.Machine

/-- "on the screen": the bounds of R118, R119. -/
abbrev OnScreen (x y : Int) : Prop := (0 ≤ x ∧ x < 64) ∧ (0 ≤ y ∧ y < 32)

theorem Frame.getPixel_of_not {f : Frame} {x y : Int} (h : ¬ OnScreen x y) : f.getPixel x y = false :=
  dif_neg h

/-- Every pixel of the cleared framebuffer is 0 (R120). -/
@[simp] theorem Frame.getPixel_blank (x y : Int) : Frame.blank.getPixel x y = false := by
  unfold Frame.getPixel Frame.blank
  split <;> simp

/-- A toggle flips the pixel it names, where there is one, and no other (R119). -/
theorem Frame.getPixel_togglePixel (f : Frame) (x y px py : Int) :
    (f.togglePixel x y).getPixel px py
      = (f.getPixel px py ^^ decide (OnScreen px py ∧ px = x ∧ py = y)) := by
  by_cases h : OnScreen x y
  · by_cases hp : OnScreen px py
    · by_cases hy : py = y
      · by_cases hx : px = x
        · subst hy hx
          simp [Frame.togglePixel, Frame.getPixel, h]
        · have : x.toNat ≠ px.toNat := by obtain ⟨h, -⟩ := h; obtain ⟨hp, -⟩ := hp; omega
          subst hy
          simp [Frame.togglePixel, Frame.getPixel, h, hp, hx, this]
      · have : y.toNat ≠ py.toNat := by obtain ⟨-, h⟩ := h; obtain ⟨-, hp⟩ := hp; omega
        simp [Frame.togglePixel, Frame.getPixel, h, hp, hy, this]
    · simp [Frame.getPixel_of_not hp, hp]
  · have : ¬ (OnScreen px py ∧ px = x ∧ py = y) := by rintro ⟨hp, rfl, rfl⟩; exact h hp
    simp [Frame.togglePixel, h, this]

/-- Two framebuffers with the same pixels are equal. -/
theorem Frame.ext_getPixel {f g : Frame} (h : ∀ x y : Int, f.getPixel x y = g.getPixel x y) : f = g := by
  refine Vector.ext fun y hy => Vector.ext fun x hx => ?_
  have := h x y
  simpa [Frame.getPixel, hx, hy, show (x : Int) < 64 by omega, show (y : Int) < 32 by omega] using this

/-- A plotted pixel is toggled, and is a collision if it was set; off the screen neither happens. -/
theorem Blit.plot_eq (d : Blit) (px py : Int) :
    d.plot px py = { frame := d.frame.togglePixel px py, hit := d.hit || d.frame.getPixel px py } := by
  unfold Blit.plot
  split
  · rfl
  next h => simp [Frame.togglePixel, h, Frame.getPixel_of_not h]

/-! ### One sprite row -/

/-- A row's columns `c < k`, drawn left first. -/
def Blit.rowTo (d : Blit) (b : Byte) (px py : Int) (k : Nat) : Blit :=
  (List.range k).foldl (fun d c => if b.getLsbD (7 - c) then d.plot (px + c) py else d) d

theorem Blit.rowTo_succ (d : Blit) (b : Byte) (px py : Int) (k : Nat) :
    d.rowTo b px py (k + 1) =
      if b.getLsbD (7 - k) then (d.rowTo b px py k).plot (px + k) py else d.rowTo b px py k := by
  simp [Blit.rowTo, List.range_succ]

/-- A sprite row flips exactly the on-screen pixels of row `py` under its 1 bits (R121, R123). -/
theorem Blit.rowTo_getPixel (d : Blit) (b : Byte) (px py : Int) (k : Nat) (qx qy : Int) :
    (d.rowTo b px py k).frame.getPixel qx qy = (d.frame.getPixel qx qy ^^
      decide (OnScreen qx qy ∧ qy = py ∧ px ≤ qx ∧ qx < px + k ∧ b.getLsbD (7 - (qx - px).toNat) = true)) := by
  induction k with
  | zero =>
    simp [Blit.rowTo, show ¬ (px ≤ qx ∧ qx < px ∧ b.getLsbD (7 - (qx - px).toNat) = true) from fun h => by omega]
  | succ k ih =>
    rw [Blit.rowTo_succ]
    by_cases hq : qx = px + k
    · subst hq
      split
      next hb => simp [Blit.plot_eq, Frame.getPixel_togglePixel, ih, hb]
      next hb => simp [ih, hb]
    · have hk : (qx < px + ((k : Int) + 1)) ↔ qx < px + k := by omega
      split
      · simp [Blit.plot_eq, Frame.getPixel_togglePixel, ih, hk, hq]
      · simp [ih, hk]

/-- A sprite row collides exactly when one of its 1 bits lies over a set pixel. -/
theorem Blit.rowTo_hit (d : Blit) (b : Byte) (px py : Int) (k : Nat) :
    (d.rowTo b px py k).hit = true ↔
      d.hit = true ∨ ∃ c < k, b.getLsbD (7 - c) = true ∧ d.frame.getPixel (px + c) py = true := by
  induction k with
  | zero => simp [Blit.rowTo]
  | succ k ih =>
    have hpix : (d.rowTo b px py k).frame.getPixel (px + k) py = d.frame.getPixel (px + k) py := by
      simp [Blit.rowTo_getPixel]
    rw [Blit.rowTo_succ]
    simp only [Nat.lt_succ_iff_lt_or_eq]
    split
    next hb =>
      simp only [Blit.plot_eq, hpix, Bool.or_eq_true, ih]
      constructor
      · rintro ((h | ⟨c, hc, h⟩) | h)
        · exact .inl h
        · exact .inr ⟨c, .inl hc, h⟩
        · exact .inr ⟨k, .inr rfl, hb, h⟩
      · rintro (h | ⟨c, hc | rfl, h⟩)
        · exact .inl (.inl h)
        · exact .inl (.inr ⟨c, hc, h⟩)
        · exact .inr h.2
    next hb =>
      rw [ih]
      constructor
      · rintro (h | ⟨c, hc, h⟩)
        · exact .inl h
        · exact .inr ⟨c, .inl hc, h⟩
      · rintro (h | ⟨c, hc | rfl, h⟩)
        · exact .inl h
        · exact .inr ⟨c, hc, h⟩
        · exact absurd h.1 hb

theorem Blit.row_eq (d : Blit) (b : Byte) (px py : Int) : d.row b px py = d.rowTo b px py 8 := rfl

/-! ### A whole sprite -/

theorem drawSprite_zero (m : Memory) (i : Word) (px py : Int) (f : Frame) :
    drawSprite m i px py 0 f = { frame := f, hit := false } := rfl

/-- One more sprite row, below the rows before it. -/
theorem drawSprite_succ (m : Memory) (i : Word) (px py : Int) (n : Nat) (f : Frame) :
    drawSprite m i px py (n + 1) f
      = (drawSprite m i px py n f).row (m.read (effAddr i n)) px (py + n) := by
  simp [drawSprite, List.range_succ]

end Sys2Proof.Machine
end

