-- ==== Sys2Proof/Laws/Ops.lean ====
section
/-! SUPPORT. One lemma per shared operation that says what it can do; what a meaning and a step can
answer. Provers cite these instead of unfolding the operations. -/

namespace Sys2Proof.Machine

/-! ### Register lists -/

theorem mem_allRegs (k : Reg) : k ∈ allRegs := by revert k; decide

@[simp] theorem mem_regsUpTo {x k : Reg} : k ∈ regsUpTo x ↔ k ≤ x := by
  simp [regsUpTo, mem_allRegs]

/-! ### Addresses (R42, R117) -/

/-- The addresses of one access are distinct: no access spans 65536 bytes. -/
theorem effAddr_inj {i : Word} {j k : Nat} (hj : j < 65536) (hk : k < 65536) :
    effAddr i j = effAddr i k ↔ j = k := by
  constructor
  · intro h
    have := congrArg BitVec.toNat h
    simp only [effAddr, BitVec.toNat_add, BitVec.toNat_ofNat] at this
    omega
  · rintro rfl; rfl

theorem effAddr_zero (i : Word) : effAddr i 0 = i := by simp [effAddr]

/-! ### Stores and loads of register blocks (R114, R115) -/

/-- After a block store, register `k`'s byte stands at `I + k` where a cell is; where none is, 0. -/
theorem read_storeRegs (s : State) {ks : List Reg} {k : Reg} (hk : k ∈ ks) :
    (storeRegs s ks).read (effAddr s.i k.val) =
      if (effAddr s.i k.val).toNat < 4096 then s.getV k else 0 := by
  induction ks using List.reverseRecOn with
  | nil => simp at hk
  | append_singleton ks j ih =>
    simp only [storeRegs, List.foldl_append, List.foldl_cons, List.foldl_nil] at ih ⊢
    rw [Memory.read_write]
    by_cases hjk : k = j
    · subst hjk
      split <;> simp_all [Memory.read_of_ge]
    · have hne : effAddr s.i k.val ≠ effAddr s.i j.val := fun h =>
        hjk (Fin.ext ((effAddr_inj (by omega) (by omega)).1 h))
      simp only [hne, false_and, if_false]
      exact ih (by simpa [hjk] using hk)

/-- A block store leaves every byte outside its addresses as it was. -/
theorem read_storeRegs_of_ne (s : State) {ks : List Reg} {a : Word}
    (ha : ∀ k ∈ ks, a ≠ effAddr s.i k.val) : (storeRegs s ks).read a = s.mem.read a := by
  induction ks using List.reverseRecOn with
  | nil => rfl
  | append_singleton ks j ih =>
    simp only [storeRegs, List.foldl_append, List.foldl_cons, List.foldl_nil] at ih ⊢
    rw [Memory.read_write_of_ne _ (ha j (by simp)), ih fun k hk => ha k (by simp [hk])]

theorem wf_storeRegs {s : State} (h : s.mem.wf) (ks : List Reg) : (storeRegs s ks).wf := by
  induction ks using List.reverseRecOn with
  | nil => exact h
  | append_singleton ks j ih =>
    simp only [storeRegs, List.foldl_append, List.foldl_cons, List.foldl_nil] at ih ⊢
    exact Memory.wf_write ih _ _

/-- A block load changes the registers alone. -/
theorem loadRegs_eq (s : State) (ks : List Reg) : loadRegs s ks = { s with v := (loadRegs s ks).v } := by
  induction ks using List.reverseRecOn with
  | nil => rfl
  | append_singleton ks j ih =>
    simp only [loadRegs, List.foldl_append, List.foldl_cons, List.foldl_nil] at ih ⊢
    conv_lhs => rw [ih]
    rfl

/-- A block load: register `k` holds the byte at `I + k`, a register not listed what it held. -/
theorem getV_loadRegs (s : State) (ks : List Reg) (k : Reg) :
    (loadRegs s ks).getV k = if k ∈ ks then s.mem.read (effAddr s.i k.val) else s.getV k := by
  induction ks using List.reverseRecOn with
  | nil => rfl
  | append_singleton ks j ih =>
    simp only [loadRegs, List.foldl_append, List.foldl_cons, List.foldl_nil] at ih ⊢
    rw [State.getV_setV, ih]
    by_cases hjk : k = j
    · simp [hjk]
    · simp [hjk]

/-! ### Decimal digits (R113) -/

/-- What the three digits of Fx33 read as: each byte is written or dropped on its own. -/
theorem read_storeDigits (m : Memory) (i : Word) (b : Byte) (a : Word) :
    (storeDigits m i b).read a =
      if a = effAddr i 2 ∧ a.toNat < 4096 then ones b
      else if a = effAddr i 1 ∧ a.toNat < 4096 then tens b
      else if a = effAddr i 0 ∧ a.toNat < 4096 then hundreds b
      else m.read a := by
  simp only [storeDigits, Memory.read_write]
  by_cases h2 : a = effAddr i 2
  · subst h2
    have h1 : effAddr i 2 ≠ effAddr i 1 := fun h => by have := (effAddr_inj (by omega) (by omega)).1 h; omega
    have h0 : effAddr i 2 ≠ effAddr i 0 := fun h => by have := (effAddr_inj (by omega) (by omega)).1 h; omega
    simp [h1, h0]
  · by_cases h1 : a = effAddr i 1
    · subst h1
      have h0 : effAddr i 1 ≠ effAddr i 0 := fun h => by have := (effAddr_inj (by omega) (by omega)).1 h; omega
      simp [h2, h0]
    · by_cases h0 : a = effAddr i 0
      · subst h0; simp [h2, h1]
      · simp [h2, h1, h0]

theorem wf_storeDigits {m : Memory} (h : m.wf) (i : Word) (b : Byte) : (storeDigits m i b).wf :=
  Memory.wf_write (Memory.wf_write (Memory.wf_write h _ _) _ _) _ _

/-! ### Keys (R125, R126, R150) -/

/-- A key number from 0 to 15 reads its own flag. -/
theorem State.isDown_key (s : State) (k : Reg) : s.isDown (k.val : Int) = s.keys[k] := by
  have : (k.val : Int) ≤ 15 := by omega
  simp [State.isDown, this]

theorem State.isDown_of_not {s : State} {k : Int} (h : ¬ (0 ≤ k ∧ k ≤ 15)) : s.isDown k = false := dif_neg h

/-- `KEY_SET` sets the key it names, where there is one, and no other. -/
theorem State.isDown_keySet (s : State) (key k : Int) (down : Bool) :
    (s.keySet key down).isDown k = if k = key ∧ 0 ≤ key ∧ key ≤ 15 then down else s.isDown k := by
  unfold State.keySet
  by_cases h : 0 ≤ key ∧ key ≤ 15
  · by_cases hk : 0 ≤ k ∧ k ≤ 15
    · by_cases he : k = key
      · subst he; simp [State.isDown, h]
      · have : key.toNat ≠ k.toNat := by omega
        simp [State.isDown, h, hk, he, this]
    · have : k ≠ key := by rintro rfl; exact hk h
      simp [State.isDown_of_not hk, this]
  · simp [h]

/-- `FirstDown()` answers the lowest key that is down. -/
theorem State.firstDown_some {s : State} {k : Reg} (h : s.firstDown = some k) :
    s.keys[k] = true ∧ ∀ j : Reg, j < k → s.keys[j] = false := by
  obtain ⟨hk, as, bs, has, hlt⟩ := List.find?_eq_some_iff_append.1 h
  refine ⟨hk, fun j hj => ?_⟩
  have hj' : j ∈ as := by
    have hmem : j ∈ as ++ k :: bs := has ▸ mem_allRegs j
    have hsorted : (as ++ k :: bs).Pairwise (· < ·) := has ▸ (by decide : allRegs.Pairwise (· < ·))
    rcases List.mem_append.1 hmem with hm | hm
    · exact hm
    · rcases List.mem_cons.1 hm with rfl | hm
      · exact absurd hj (lt_irrefl _)
      · have := (List.pairwise_cons.1 (List.pairwise_append.1 hsorted).2.1).1 j hm
        exact absurd (hj.trans this) (lt_irrefl _)
  simpa using hlt j hj'

/-- `FirstDown()` answers none exactly when no key is down. -/
theorem State.firstDown_none {s : State} : s.firstDown = none ↔ ∀ j : Reg, s.keys[j] = false := by
  simp [State.firstDown, mem_allRegs]

/-! ### Call stack (R24) -/

/-- `Pop()`: nothing on an empty stack, else the newest entry and the rest. -/
theorem State.pop?_cases (s : State) :
    (s.stack = [] ∧ s.pop? = none) ∨
    ∃ ws w, s.stack = ws ++ [w] ∧ s.pop? = some (w, { s with stack := ws }) := by
  rcases s.stack.eq_nil_or_concat with h | ⟨ws, w, h⟩
  · exact .inl ⟨h, by simp [State.pop?, h]⟩
  · exact .inr ⟨ws, w, by simpa using h, by simp [State.pop?, h]⟩

/-! ### What a meaning and a step can answer -/

/-- Every instruction answers a next state, whatever the state: no meaning stops. -/
theorem exec_next (i : Instr) (s : State) : ∃ t, exec i s = .next t := by
  cases i with
  | call nnn => simp only [exec, execCall]; split <;> exact ⟨_, rfl⟩
  | ret => simp only [exec, execRet]; split <;> exact ⟨_, rfl⟩
  | ldVxK x => simp only [exec, execLdVxK]; split <;> exact ⟨_, rfl⟩
  | _ => exact ⟨_, rfl⟩

/-- What a step can do (R81): it stops on a halted machine; else it runs the decoded instruction, or
takes the fault InvalidOpcode. -/
theorem step_cases (s : State) :
    (s.halted = true ∧ step s = .fault (.halted s.faultCause s.faultOpcode s.faultPc)) ∨
    (s.halted = false ∧ ∃ i, decode s.fetchWord = .ok i ∧ step s = exec i s.advancePc) ∨
    (s.halted = false ∧ ∃ e, decode s.fetchWord = .error e ∧
      step s = .next (s.advancePc.raiseFault .invalidOpcode s.fetchWord s.pc)) := by
  unfold step
  cases hh : s.halted with
  | true => exact .inl ⟨rfl, rfl⟩
  | false =>
    cases hd : decode s.fetchWord with
    | ok i => exact .inr (.inl ⟨rfl, i, rfl, rfl⟩)
    | error e => exact .inr (.inr ⟨rfl, e, rfl, rfl⟩)

end Sys2Proof.Machine
end

