-- ==== Sys2Proof/Laws/PerInstr.lean ====
section
/-! SUPPORT. Facts of every instruction as syntax, one lemma per constructor. Family `Encoding`: the
encoder's word carries the fixed bits of the instruction's row of the opcode table (R75). -/

namespace Sys2Proof.Laws.Encoding

/-- The word of `i` is hit by the row of `i`: `encode i AND mask = match`. -/
def Statement (i : Instr) : Prop := i.row.hits (encode i) = true

theorem of_eq {i : Instr} (h : encode i &&& i.row.mask = i.row.pattern) : Statement i := by
  simpa [Statement, OpRow.hits] using h

theorem cls : Statement .cls := of_eq rfl
theorem ret : Statement .ret := of_eq rfl
theorem jp (nnn : Addr12) : Statement (.jp nnn) := of_eq ((wordA_and_mask _ _).trans rfl)
theorem call (nnn : Addr12) : Statement (.call nnn) := of_eq ((wordA_and_mask _ _).trans rfl)
theorem seVxNn (x : Reg) (nn : Byte) : Statement (.seVxNn x nn) := of_eq ((wordXI_and_mask _ _ _).trans rfl)
theorem sneVxNn (x : Reg) (nn : Byte) : Statement (.sneVxNn x nn) := of_eq ((wordXI_and_mask _ _ _).trans rfl)
theorem seVxVy (x y : Reg) : Statement (.seVxVy x y) := of_eq ((nibbles_and_maskXY _ _ _ _).trans rfl)
theorem ldVxNn (x : Reg) (nn : Byte) : Statement (.ldVxNn x nn) := of_eq ((wordXI_and_mask _ _ _).trans rfl)
theorem addVxNn (x : Reg) (nn : Byte) : Statement (.addVxNn x nn) := of_eq ((wordXI_and_mask _ _ _).trans rfl)
theorem ldVxVy (x y : Reg) : Statement (.ldVxVy x y) := of_eq ((nibbles_and_maskXY _ _ _ _).trans rfl)
theorem or (x y : Reg) : Statement (.or x y) := of_eq ((nibbles_and_maskXY _ _ _ _).trans rfl)
theorem and (x y : Reg) : Statement (.and x y) := of_eq ((nibbles_and_maskXY _ _ _ _).trans rfl)
theorem xor (x y : Reg) : Statement (.xor x y) := of_eq ((nibbles_and_maskXY _ _ _ _).trans rfl)
theorem addVxVy (x y : Reg) : Statement (.addVxVy x y) := of_eq ((nibbles_and_maskXY _ _ _ _).trans rfl)
theorem sub (x y : Reg) : Statement (.sub x y) := of_eq ((nibbles_and_maskXY _ _ _ _).trans rfl)
theorem shr (x y : Reg) : Statement (.shr x y) := of_eq ((nibbles_and_maskXY _ _ _ _).trans rfl)
theorem subn (x y : Reg) : Statement (.subn x y) := of_eq ((nibbles_and_maskXY _ _ _ _).trans rfl)
theorem shl (x y : Reg) : Statement (.shl x y) := of_eq ((nibbles_and_maskXY _ _ _ _).trans rfl)
theorem sneVxVy (x y : Reg) : Statement (.sneVxVy x y) := of_eq ((nibbles_and_maskXY _ _ _ _).trans rfl)
theorem ldINnn (nnn : Addr12) : Statement (.ldINnn nnn) := of_eq ((wordA_and_mask _ _).trans rfl)
theorem jpV0 (nnn : Addr12) : Statement (.jpV0 nnn) := of_eq ((wordA_and_mask _ _).trans rfl)
theorem rnd (x : Reg) (nn : Byte) : Statement (.rnd x nn) := of_eq ((wordXI_and_mask _ _ _).trans rfl)
theorem drw (x y : Reg) (n : Fin 16) : Statement (.drw x y n) := of_eq ((nibbles_and_mask _ _ _ _).trans rfl)
theorem skp (x : Reg) : Statement (.skp x) := of_eq ((wordXI_and_maskXF _ _ _).trans rfl)
theorem sknp (x : Reg) : Statement (.sknp x) := of_eq ((wordXI_and_maskXF _ _ _).trans rfl)
theorem ldVxDt (x : Reg) : Statement (.ldVxDt x) := of_eq ((wordXI_and_maskXF _ _ _).trans rfl)
theorem ldVxK (x : Reg) : Statement (.ldVxK x) := of_eq ((wordXI_and_maskXF _ _ _).trans rfl)
theorem ldDtVx (x : Reg) : Statement (.ldDtVx x) := of_eq ((wordXI_and_maskXF _ _ _).trans rfl)
theorem ldStVx (x : Reg) : Statement (.ldStVx x) := of_eq ((wordXI_and_maskXF _ _ _).trans rfl)
theorem addIVx (x : Reg) : Statement (.addIVx x) := of_eq ((wordXI_and_maskXF _ _ _).trans rfl)
theorem ldFVx (x : Reg) : Statement (.ldFVx x) := of_eq ((wordXI_and_maskXF _ _ _).trans rfl)
theorem ldBVx (x : Reg) : Statement (.ldBVx x) := of_eq ((wordXI_and_maskXF _ _ _).trans rfl)
theorem ldMemVx (x : Reg) : Statement (.ldMemVx x) := of_eq ((wordXI_and_maskXF _ _ _).trans rfl)
theorem ldVxMem (x : Reg) : Statement (.ldVxMem x) := of_eq ((wordXI_and_maskXF _ _ _).trans rfl)

end Sys2Proof.Laws.Encoding
end

