-- ==== Sys2Proof/Tests/Slice0.lean ====
section
/-! SUPPORT. The model's own tests. Expected results come from the spec: words written out from the
encodings of R75, and the vectors S1 to S12 and V1 to V96 of `95_test_vectors.md`, named in the comment
above each test. Then one witness for each statement of the obligations that has hypotheses. -/

namespace Sys2Proof.Tests

open Sys2Proof.Machine

/-! ## Helpers -/

/-- The reset state with the word `op` at 0x200, where `PC` points. -/
def at0 (op : Nat) : State := State.reset.withFetchWord 16 op

/-- The state with the listed registers set. -/
def withV (s : State) (vs : List (Reg × Byte)) : State := vs.foldl (fun t p => t.setV p.1 p.2) s

/-- The state with the listed bytes stored from `a` on. -/
def withMem (s : State) (a : Nat) (bytes : List Byte) : State := s.setMem (s.mem.load a bytes)

/-- The state with the listed pixels, column and row, toggled. -/
def withPixels (s : State) (ps : List (Int × Int)) : State :=
  s.setFb (ps.foldl (fun f p => f.togglePixel p.1 p.2) s.fb)

/-- The reset state with 16 return addresses on the stack. -/
def deep (op : Nat) : State := { at0 op with stack := List.replicate 16 0x0202#16 }

/-- A machine that has raised InvalidOpcode for 0x5001 at 0x202 (S12). -/
def haltedState : State := { State.reset with pc := 0x204#16 }.raiseFault .invalidOpcode 0x5001#16 0x202#16

/-- The result is a next state in which `p` holds. -/
def nextHas (r : Result) (p : State → Bool) : Bool :=
  match r with
  | .next t => p t
  | .fault _ => false
  | .refused _ => false

/-- The bytes from `a` on. -/
def bytesAt (s : State) (a n : Nat) : List Byte :=
  (List.range n).map (fun k => s.mem.read (BitVec.ofNat 16 (a + k)))

/-- The pixels from column `x` on of row `y`. -/
def pixelsAt (s : State) (x y : Int) (n : Nat) : List Bool :=
  (List.range n).map (fun k => s.fb.getPixel (x + k) y)

/-! ## WellFormed refuses each ill-formed operand list (R66 to R68) -/

theorem test_wf_reg_refused : regOk 16 = false := by decide
theorem test_wf_byte_refused : byteOk 256 = false := by decide
theorem test_wf_addr_refused : addrOk 4096 = false := by decide
theorem test_wf_count_refused : countOk 16 = false := by decide
theorem test_wf_A_refused : Format.A.accepts { nnn := 4096 } = false := by decide
theorem test_wf_XI_reg_refused : Format.XI.accepts { x := 16, nn := 255 } = false := by decide
theorem test_wf_XI_byte_refused : Format.XI.accepts { x := 15, nn := 256 } = false := by decide
theorem test_wf_XY_x_refused : Format.XY.accepts { x := 16, y := 15 } = false := by decide
theorem test_wf_XY_y_refused : Format.XY.accepts { x := 15, y := 16 } = false := by decide
theorem test_wf_XYN_x_refused : Format.XYN.accepts { x := 16, y := 15, n := 15 } = false := by decide
theorem test_wf_XYN_y_refused : Format.XYN.accepts { x := 15, y := 16, n := 15 } = false := by decide
theorem test_wf_XYN_n_refused : Format.XYN.accepts { x := 15, y := 15, n := 16 } = false := by decide
theorem test_wf_XF_refused : Format.XF.accepts { x := 16 } = false := by decide
theorem test_wf_boundaries_accepted :
    Format.A.accepts { nnn := 4095 } = true ∧ Format.XI.accepts { x := 15, nn := 255 } = true ∧
    Format.XYN.accepts { x := 15, y := 15, n := 15 } = true ∧ Format.Z.accepts {} = true := by decide

/-! ## Decoding: one word of every row, its bits written out from the pattern column of R75 -/

theorem test_decode_cls : decode 0b0000000011100000#16 = .ok .cls := by decide
theorem test_decode_ret : decode 0b0000000011101110#16 = .ok .ret := by decide
theorem test_decode_jp : decode 0b0001101010111100#16 = .ok (.jp 0xABC#12) := by decide
theorem test_decode_call : decode 0b0010001100000000#16 = .ok (.call 0x300#12) := by decide
theorem test_decode_seVxNn : decode 0b0011001100101010#16 = .ok (.seVxNn 3 0x2A#8) := by decide
theorem test_decode_sneVxNn : decode 0b0100110010000001#16 = .ok (.sneVxNn 12 0x81#8) := by decide
theorem test_decode_seVxVy : decode 0b0101000100100000#16 = .ok (.seVxVy 1 2) := by decide
theorem test_decode_ldVxNn : decode 0b0110101000101100#16 = .ok (.ldVxNn 10 0x2C#8) := by decide
theorem test_decode_addVxNn : decode 0b0111001100001010#16 = .ok (.addVxNn 3 0x0A#8) := by decide
theorem test_decode_ldVxVy : decode 0b1000000100100000#16 = .ok (.ldVxVy 1 2) := by decide
theorem test_decode_or : decode 0b1000111100010001#16 = .ok (.or 15 1) := by decide
theorem test_decode_and : decode 0b1000000111110010#16 = .ok (.and 1 15) := by decide
theorem test_decode_xor : decode 0b1000000100100011#16 = .ok (.xor 1 2) := by decide
theorem test_decode_addVxVy : decode 0b1000000100100100#16 = .ok (.addVxVy 1 2) := by decide
theorem test_decode_sub : decode 0b1000011101010101#16 = .ok (.sub 7 5) := by decide
theorem test_decode_shr : decode 0b1000000110010110#16 = .ok (.shr 1 9) := by decide
theorem test_decode_subn : decode 0b1000101110100111#16 = .ok (.subn 11 10) := by decide
theorem test_decode_shl : decode 0b1000111100001110#16 = .ok (.shl 15 0) := by decide
theorem test_decode_sneVxVy : decode 0b1001000100100000#16 = .ok (.sneVxVy 1 2) := by decide
theorem test_decode_ldINnn : decode 0b1010001011110000#16 = .ok (.ldINnn 0x2F0#12) := by decide
theorem test_decode_jpV0 : decode 0b1011111111111111#16 = .ok (.jpV0 0xFFF#12) := by decide
theorem test_decode_rnd : decode 0b1100001100001111#16 = .ok (.rnd 3 0x0F#8) := by decide
theorem test_decode_drw : decode 0b1101000100101111#16 = .ok (.drw 1 2 15) := by decide
theorem test_decode_skp : decode 0b1110001010011110#16 = .ok (.skp 2) := by decide
theorem test_decode_sknp : decode 0b1110001010100001#16 = .ok (.sknp 2) := by decide
theorem test_decode_ldVxDt : decode 0b1111010000000111#16 = .ok (.ldVxDt 4) := by decide
theorem test_decode_ldVxK : decode 0b1111001100001010#16 = .ok (.ldVxK 3) := by decide
theorem test_decode_ldDtVx : decode 0b1111010000010101#16 = .ok (.ldDtVx 4) := by decide
theorem test_decode_ldStVx : decode 0b1111010000011000#16 = .ok (.ldStVx 4) := by decide
theorem test_decode_addIVx : decode 0b1111001000011110#16 = .ok (.addIVx 2) := by decide
theorem test_decode_ldFVx : decode 0b1111000100101001#16 = .ok (.ldFVx 1) := by decide
theorem test_decode_ldBVx : decode 0b1111000100110011#16 = .ok (.ldBVx 1) := by decide
theorem test_decode_ldMemVx : decode 0b1111001001010101#16 = .ok (.ldMemVx 2) := by decide
theorem test_decode_ldVxMem : decode 0b1111111101100101#16 = .ok (.ldVxMem 15) := by decide

/-- The invalid words of V19, each refused under the name of its group. -/
theorem test_decode_invalid :
    [0x0000#16, 0x00E1#16, 0x0123#16].map decode = List.replicate 3 (.error .group0) ∧
    decode 0x5121#16 = .error .group5 ∧
    [0x8128#16, 0x812F#16].map decode = List.replicate 2 (.error .group8) ∧
    decode 0x9121#16 = .error .group9 ∧
    [0xE09F#16, 0xE1A0#16].map decode = List.replicate 2 (.error .groupE) ∧
    [0xF000#16, 0xF108#16, 0xF1FF#16].map decode = List.replicate 3 (.error .groupF) := by decide

/-- The high byte stands first (R64); one byte is no instruction (R63). -/
theorem test_decodeBytes :
    decodeBytes [0xA2, 0xF0, 0x55] = .ok (.ldINnn 0x2F0#12, [0x55]) ∧
    decodeBytes [0xA2] = .error .truncated ∧
    decodeBytes [0x50, 0x01] = .error (.invalid .group5 0x5001#16) := by decide

theorem test_encodeBytes : encodeBytes (.drw 1 2 5) = [0xD1, 0x25] := by decide

theorem test_decodeTableWord :
    decodeTableWord 16 0x8124 = some (.addVxVy 1 2) ∧ decodeTableWord 16 0x5001 = none := by decide

/-- The word placed for the host's question is the one the next step fetches. -/
theorem test_withFetchWord :
    (at0 0xD125).fetchWord = 0xD125#16 ∧ (at0 0xD125).pc = 0x200#16 ∧
    (State.withFetchWord { State.reset with pc := 0xFFF#16 } 16 0x00E0).fetchWord = 0x00E0#16 ∧
    (haltedState.withFetchWord 16 0x00E0).halted = false := by decide

/-! ## Control transfer -/

/-- V1 -/
theorem test_ret_pops :
    nextHas (step { at0 0x00EE with stack := [0x0300#16, 0x0204#16] })
      (fun t => t.pc == 0x204#16 && t.stack == [0x300#16]) = true := by decide
/-- S7, V2 -/
theorem test_ret_empty :
    nextHas (step (at0 0x00EE)) (fun t => t.pc == 0x202#16 && t.sp == 0 && !t.halted) = true := by decide
/-- V3 -/
theorem test_jp : nextHas (step (at0 0x1234)) (fun t => t.pc == 0x234#16) = true := by decide
/-- V5 -/
theorem test_call :
    nextHas (step (at0 0x2300)) (fun t => t.pc == 0x300#16 && t.stack == [0x202#16]) = true := by decide
/-- V6, at 0x200 -/
theorem test_call_overflow :
    nextHas (step (deep 0x2300)) (fun t => t.halted && t.faultCause == .stackOverflow &&
      t.faultOpcode == 0x2300#16 && t.faultPc == 0x200#16 && t.pc == 0x202#16 && t.sp == 16) = true := by
  decide
/-- V7 -/
theorem test_seVxNn_skips :
    nextHas (step (withV (at0 0x332A) [(3, 0x2A)])) (fun t => t.pc == 0x204#16) = true := by decide
/-- V8 -/
theorem test_seVxNn_stays :
    nextHas (step (withV (at0 0x332A) [(3, 0x2B)])) (fun t => t.pc == 0x202#16) = true := by decide
/-- V9 -/
theorem test_sneVxNn_skips :
    nextHas (step (withV (at0 0x432A) [(3, 0x2B)])) (fun t => t.pc == 0x204#16) = true := by decide
/-- V10 -/
theorem test_sneVxNn_stays :
    nextHas (step (withV (at0 0x432A) [(3, 0x2A)])) (fun t => t.pc == 0x202#16) = true := by decide
/-- V11 -/
theorem test_seVxVy_same : nextHas (step (at0 0x5770)) (fun t => t.pc == 0x204#16) = true := by decide
/-- V12 -/
theorem test_seVxVy_stays :
    nextHas (step (withV (at0 0x5120) [(1, 7), (2, 8)])) (fun t => t.pc == 0x202#16) = true := by decide
/-- V13 -/
theorem test_sneVxVy_same : nextHas (step (at0 0x9770)) (fun t => t.pc == 0x202#16) = true := by decide
/-- V14 -/
theorem test_sneVxVy_skips :
    nextHas (step (withV (at0 0x9120) [(1, 7), (2, 8)])) (fun t => t.pc == 0x204#16) = true := by decide
/-- V16 -/
theorem test_jpV0_past_memory :
    nextHas (step (withV (at0 0xBFFF) [(0, 0xFF)])) (fun t => t.pc == 0x10FE#16) = true := by decide
/-- V17: the second byte of a fetch at the last cell reads 0. -/
theorem test_fetch_at_the_end :
    (withMem { State.reset with pc := 0xFFF#16 } 0xFFF [0x12]).fetchWord = 0x1200#16 := by decide

/-! ## Registers and arithmetic -/

/-- V21 -/
theorem test_ldVxNn : nextHas (step (at0 0x6A2C)) (fun t => t.getV 10 == 0x2C) = true := by decide
/-- S1 -/
theorem test_addVxNn_wraps :
    nextHas (step (withV (at0 0x730A) [(3, 0xFA), (15, 1)]))
      (fun t => t.getV 3 == 4 && t.getV 15 == 1) = true := by decide
/-- V22 -/
theorem test_addVxNn_VF :
    nextHas (step (withV (at0 0x7F02) [(15, 1)])) (fun t => t.getV 15 == 3) = true := by decide
/-- V24 -/
theorem test_ldVxVy :
    nextHas (step (withV (at0 0x8120) [(2, 0x55), (15, 1)]))
      (fun t => t.getV 1 == 0x55 && t.getV 15 == 1) = true := by decide
/-- V25 -/
theorem test_or :
    nextHas (step (withV (at0 0x8121) [(1, 0xF0), (2, 0x0F), (15, 1)]))
      (fun t => t.getV 1 == 0xFF && t.getV 15 == 0) = true := by decide
/-- V26 -/
theorem test_or_VF :
    nextHas (step (withV (at0 0x8F11) [(15, 0x0F), (1, 0xF0)])) (fun t => t.getV 15 == 0) = true := by
  decide
/-- V27 -/
theorem test_and_VF_operand :
    nextHas (step (withV (at0 0x81F2) [(1, 0xFF), (15, 0x0F)]))
      (fun t => t.getV 1 == 0x0F && t.getV 15 == 0) = true := by decide
/-- V28 -/
theorem test_xor :
    nextHas (step (withV (at0 0x8123) [(1, 0xF0), (2, 0x3C), (15, 1)]))
      (fun t => t.getV 1 == 0xCC && t.getV 15 == 0) = true := by decide
/-- S2 (a) -/
theorem test_addVxVy_carry :
    nextHas (step (withV (at0 0x8124) [(1, 0xC8), (2, 0x64)]))
      (fun t => t.getV 1 == 0x2C && t.getV 15 == 1) = true := by decide
/-- V33 -/
theorem test_addVxVy_VF :
    nextHas (step (withV (at0 0x8F14) [(15, 0xC8), (1, 0x64)])) (fun t => t.getV 15 == 1) = true := by
  decide
/-- S3 (b) -/
theorem test_sub_borrow :
    nextHas (step (withV (at0 0x8125) [(1, 3), (2, 10), (15, 1)]))
      (fun t => t.getV 1 == 0xF9 && t.getV 15 == 0) = true := by decide
/-- V35 -/
theorem test_sub_equal :
    nextHas (step (withV (at0 0x8125) [(1, 5), (2, 5)]))
      (fun t => t.getV 1 == 0 && t.getV 15 == 1) = true := by decide
/-- S4 (a) -/
theorem test_shr :
    nextHas (step (withV (at0 0x8126) [(1, 4), (2, 0xFF), (15, 1)]))
      (fun t => t.getV 1 == 2 && t.getV 15 == 0 && t.getV 2 == 0xFF) = true := by decide
/-- V41 -/
theorem test_shr_VF :
    nextHas (step (withV (at0 0x8F06) [(15, 3)])) (fun t => t.getV 15 == 1) = true := by decide
/-- V42 -/
theorem test_subn :
    nextHas (step (withV (at0 0x8127) [(1, 3), (2, 10)]))
      (fun t => t.getV 1 == 7 && t.getV 15 == 1 && t.getV 2 == 10) = true := by decide
/-- V43 -/
theorem test_subn_borrow :
    nextHas (step (withV (at0 0x8127) [(1, 10), (2, 3), (15, 1)]))
      (fun t => t.getV 1 == 0xF9 && t.getV 15 == 0) = true := by decide
/-- S4 (d) -/
theorem test_shl :
    nextHas (step (withV (at0 0x812E) [(1, 0x81)]))
      (fun t => t.getV 1 == 2 && t.getV 15 == 1) = true := by decide
/-- V48 -/
theorem test_shl_VF :
    nextHas (step (withV (at0 0x8F0E) [(15, 1)])) (fun t => t.getV 15 == 0) = true := by decide
/-- V49 -/
theorem test_rnd :
    nextHas (stepWith 0xB7 (at0 0xC30F)) (fun t => t.getV 3 == 7 && t.pc == 0x202#16) = true := by decide
/-- V52 -/
theorem test_rnd_ignored :
    nextHas (stepWith 0xB7 (at0 0x6312)) (fun t => t.getV 3 == 0x12) = true := by decide

/-! ## Index register and memory -/

/-- V53 -/
theorem test_ldINnn : nextHas (step (at0 0xA2F0)) (fun t => t.i == 0x2F0#16) = true := by decide
/-- V54 -/
theorem test_addIVx :
    nextHas (step (withV ((at0 0xF21E).setI 0xFFE#16) [(2, 5)]))
      (fun t => t.i == 0x1003#16 && t.getV 15 == 0) = true := by decide
/-- V55 -/
theorem test_addIVx_wraps :
    nextHas (step (withV ((at0 0xF21E).setI 0xFFFF#16) [(2, 2)])) (fun t => t.i == 1#16) = true := by decide
/-- V56 -/
theorem test_ldFVx :
    nextHas (step (withV (at0 0xF129) [(1, 0x1A)])) (fun t => t.i == 130#16) = true := by decide
/-- V58 -/
theorem test_ldBVx :
    nextHas (step (withV ((at0 0xF133).setI 0x300#16) [(1, 254)]))
      (fun t => bytesAt t 0x300 4 == [2, 5, 4, 0] && t.i == 0x300#16) = true := by decide
/-- V61 -/
theorem test_ldBVx_end :
    nextHas (step (withV ((at0 0xF133).setI 0xFFE#16) [(1, 254)]))
      (fun t => bytesAt t 0xFFD 4 == [0, 2, 5, 0] && !t.halted) = true := by decide
/-- S10, first half -/
theorem test_ldMemVx :
    nextHas (step (withV ((at0 0xF255).setI 0x400#16) [(0, 0x11), (1, 0x22), (2, 0x33), (3, 0x44)]))
      (fun t => bytesAt t 0x400 4 == [0x11, 0x22, 0x33, 0] && t.i == 0x403#16) = true := by decide
/-- V62 -/
theorem test_ldMemVx_end :
    nextHas (step (withV ((at0 0xF155).setI 0xFFF#16) [(0, 0xAB), (1, 0xCD)]))
      (fun t => bytesAt t 0xFFF 2 == [0xAB, 0] && t.i == 0x1001#16) = true := by decide
/-- V65 -/
theorem test_ldVxMem :
    nextHas (step (withV (withMem ((at0 0xF265).setI 0x400#16) 0x400 [0x11, 0x22, 0x33, 0x44]) [(3, 0x99)]))
      (fun t => [t.getV 0, t.getV 1, t.getV 2, t.getV 3] == [0x11, 0x22, 0x33, 0x99] &&
        t.i == 0x403#16) = true := by decide
/-- V66; the byte at address 0 is the first font byte, 0xF0 with the default font (log 1). -/
theorem test_ldVxMem_wraps :
    nextHas (step (withV ((at0 0xF165).setI 0xFFFF#16) [(0, 1)]))
      (fun t => t.getV 0 == 0 && t.getV 1 == 0xF0 && t.i == 1#16) = true := by decide

/-! ## Display -/

/-- V69 -/
theorem test_cls :
    nextHas (step (withV (withPixels (at0 0x00E0) [(0, 0), (63, 31), (10, 5)]) [(15, 1)]))
      (fun t => !t.fb.getPixel 0 0 && !t.fb.getPixel 63 31 && !t.fb.getPixel 10 5 &&
        t.getV 15 == 1) = true := by decide
/-- V77: clipped at the right edge, collision at column 63. -/
theorem test_drw_collision :
    nextHas (step (withV (withPixels (withMem ((at0 0xD011).setI 0x300#16) 0x300 [0xC0])
        [(63, 0), (0, 0)]) [(0, 63)]))
      (fun t => !t.fb.getPixel 63 0 && t.fb.getPixel 0 0 && t.getV 15 == 1) = true := by decide
/-- V76: bit 7 is the leftmost pixel; a 0 bit over a set pixel is no collision. -/
theorem test_drw_bit_order :
    nextHas (step (withV (withPixels (withMem ((at0 0xD011).setI 0x300#16) 0x300 [0x40])
        [(0, 0)]) [(15, 1)]))
      (fun t => pixelsAt t 0 0 3 == [true, true, false] && t.getV 15 == 0) = true := by decide

/-! ## Keys and timers -/

/-- V81 -/
theorem test_skp :
    nextHas (step (withV ((at0 0xE29E).keySet 5 true) [(2, 5)])) (fun t => t.pc == 0x204#16) = true := by
  decide
/-- V82, first half -/
theorem test_skp_no_key :
    nextHas (step (withV ((at0 0xE29E).keySet 5 true) [(2, 0x15)]))
      (fun t => t.pc == 0x202#16) = true := by decide
/-- V83 -/
theorem test_sknp_down :
    nextHas (step (withV ((at0 0xE2A1).keySet 5 true) [(2, 5)])) (fun t => t.pc == 0x202#16) = true := by
  decide
/-- V82, second half -/
theorem test_sknp_no_key :
    nextHas (step (withV ((at0 0xE2A1).keySet 5 true) [(2, 0x15)]))
      (fun t => t.pc == 0x204#16) = true := by decide
/-- S8, the first step -/
theorem test_ldVxK_spins :
    nextHas (step (at0 0xF30A)) (fun t => t.pc == 0x200#16 && t.getV 3 == 0) = true := by decide
/-- S8, the last step -/
theorem test_ldVxK_lowest :
    nextHas (step (((at0 0xF30A).keySet 9 true).keySet 2 true))
      (fun t => t.pc == 0x202#16 && t.getV 3 == 2) = true := by decide
/-- V86 -/
theorem test_ldVxDt :
    nextHas (step ((at0 0xF407).setDt 0x3C)) (fun t => t.getV 4 == 0x3C && t.dt == 0x3C) = true := by decide
/-- V87 -/
theorem test_ldDtVx :
    nextHas (step (withV ((at0 0xF415).setDt 5) [(4, 0x3C)])) (fun t => t.dt == 0x3C) = true := by decide
/-- V88 -/
theorem test_ldStVx :
    nextHas (step (withV (at0 0xF418) [(4, 2)])) (fun t => t.st == 2 && t.dt == 0) = true := by decide

/-! ## Faults and the operations of the host -/

/-- S12, at 0x200 -/
theorem test_invalid_faults :
    (perform (.step 0) (at0 0x5001)).2 = .stepFault .invalidOpcode 0x5001#16 0x200#16 ∧
    (perform (.step 0) (at0 0x5001)).1.pc = 0x202#16 := by decide
/-- V20 -/
theorem test_halted_step_and_tick :
    (perform (.step 0) haltedState).2 = .stepFault .invalidOpcode 0x5001#16 0x202#16 ∧
    (perform .tick (haltedState.setDt 5)).1.dt = 5 := by decide
/-- V89, V90 -/
theorem test_tick :
    (perform .tick ((State.reset.setDt 1).setSt 0)).1.dt = 0 ∧
    (perform .tick ((State.reset.setDt 0xFF).setSt 0)).1.st = 0 ∧
    (perform .tick (State.reset.setDt 0xFF)).1.dt = 0xFE := by decide
/-- V92 -/
theorem test_keySet :
    (((State.reset.keySet 16 true).keySet (-1) true).keySet 15 true).keys.toList =
      List.replicate 15 false ++ [true] := by decide
/-- V93 -/
theorem test_getPixel :
    (perform (.getPixel 63 31) (withPixels State.reset [(63, 31)])).2 = .pixel true ∧
    (perform (.getPixel 64 31) (withPixels State.reset [(63, 31)])).2 = .pixel false ∧
    (perform (.getPixel (-1) 0) State.reset).2 = .pixel false := by decide
/-- R50 on a short image: the byte at 0x1000 is dropped. -/
theorem test_load_truncates : bytesAt (withMem State.reset 0xFFE [1, 2, 3]) 0xFFD 4 = [0, 1, 2, 0] := by
  decide
/-- V96 -/
theorem test_reset_of_halted :
    (perform .reset (withMem haltedState 0 [0xAA])).1 = State.reset := by decide
/-- The numbers of R137 -/
theorem test_cause_codes :
    FaultCause.none.code = 0 ∧ FaultCause.invalidOpcode.code = 1 ∧ FaultCause.stackOverflow.code = 2 := by
  decide
/-- The memory after a store is canonical, and storing back what an unlisted cell holds removes the cell
(log 15). -/
theorem test_memory_canonical :
    (State.reset.mem.write 0x300#16 7).wf ∧ (State.reset.mem.write 0x300#16 7).write 0x300#16 0 = [] := by
  decide

/-! ## Witnesses: for each statement with hypotheses, a state and operands that meet them together, at a
boundary value of each clause. The name is `witness_<statement>`. -/

open Sys2Proof.Claims

theorem witness_DecodeOfEncodeIsIdentity :
    WellFormed (.drw 15 15 15) = true ∧ WellFormed (.jp 0xFFF#12) = true ∧ WellFormed .cls = true := by
  decide

theorem witness_EncodeOfDecodeIsIdentity :
    decode 0x8AB6#16 = .ok (.shr 10 11) ∧ decode 0xFF65#16 = .ok (.ldVxMem 15) := by decide

theorem witness_WordMatchesExactlyOneRow :
    (Instr.jp 0x000#12).row.hits 0x1FFF#16 = true ∧ (Instr.jp 0xFFF#12).row.hits 0x1FFF#16 = true := by
  decide

/-- The boundary words of each listed range. -/
theorem witness_InvalidWords_listed :
    [0x0000#16, 0x0FFF#16].map decode = List.replicate 2 (.error .group0) ∧
    decode 0x5AB1#16 = .error .group5 ∧ decode 0x9ABF#16 = .error .group9 ∧
    [0x8008#16, 0x8FFF#16].map decode = List.replicate 2 (.error .group8) ∧
    [0xE09D#16, 0xEFA2#16].map decode = List.replicate 2 (.error .groupE) ∧
    [0xF006#16, 0xFF66#16].map decode = List.replicate 2 (.error .groupF) := by decide

/-- A word that no row hits. -/
theorem witness_InvalidWords_noRow (i : Instr) : i.row.hits 0xFF66#16 = false := by
  cases i <;> refine decide_eq_false (fun h => ?_) <;> revert h <;> simp only [Instr.row] <;> decide

/-- An invalid word at `PC` of a running machine. -/
theorem witness_InvalidWords_fetched :
    (at0 0x5001).halted = false ∧ decode (at0 0x5001).fetchWord = .error .group5 := by decide

/-- The word at `PC`, as the statement spells it, in a running and in a halted machine. -/
theorem witness_StepRunsDecodedInstruction :
    (0xD125#16 = BitVec.ofNat 16 (256 * ((at0 0xD125).mem.read (at0 0xD125).pc).toNat +
        ((at0 0xD125).mem.read ((at0 0xD125).pc + 1)).toNat) ∧
      (at0 0xD125).halted = false ∧ WellFormed (.drw 1 2 5) = true ∧
      decode 0xD125#16 = .ok (.drw 1 2 5)) ∧
    (0x5001#16 = BitVec.ofNat 16 (256 * ((at0 0x5001).mem.read (at0 0x5001).pc).toNat +
        ((at0 0x5001).mem.read ((at0 0x5001).pc + 1)).toNat) ∧
      (at0 0x5001).halted = false ∧ decode 0x5001#16 = .error .group5) ∧
    (0x0000#16 = BitVec.ofNat 16 (256 * (haltedState.mem.read haltedState.pc).toNat +
        (haltedState.mem.read (haltedState.pc + 1)).toNat) ∧ haltedState.halted = true) := by
  refine ⟨⟨?_, by decide⟩, ⟨?_, by decide⟩, ?_, by decide⟩
  · rw [show (at0 0xD125).mem.read (at0 0xD125).pc = 0xD1 by decide,
      show (at0 0xD125).mem.read ((at0 0xD125).pc + 1) = 0x25 by decide]
    rfl
  · rw [show (at0 0x5001).mem.read (at0 0x5001).pc = 0x50 by decide,
      show (at0 0x5001).mem.read ((at0 0x5001).pc + 1) = 0x01 by decide]
    rfl
  · rw [show haltedState.mem.read haltedState.pc = 0 by decide,
      show haltedState.mem.read (haltedState.pc + 1) = 0 by decide]
    rfl

theorem witness_HaltedStepReturnsRecordedFault : haltedState.halted = true := by decide

/-- The lowest and the highest `PC` of the statement. -/
theorem witness_FetchPastMemoryRaisesInvalidOpcode :
    ((State.reset.setPc 0x1000#16).halted = false ∧ 0x1000 ≤ (State.reset.setPc 0x1000#16).pc.toNat ∧
      (State.reset.setPc 0x1000#16).pc.toNat ≤ 0xFFFE) ∧
    ((State.reset.setPc 0xFFFE#16).halted = false ∧ 0x1000 ≤ (State.reset.setPc 0xFFFE#16).pc.toNat ∧
      (State.reset.setPc 0xFFFE#16).pc.toNat ≤ 0xFFFE) := by decide

/-- The store of 0x1234 over the next instruction, at the last place where both bytes have a cell. -/
def overwriting : State :=
  { withV State.reset [(0, 0x12), (1, 0x34)] with i := 0xFFE#16, pc := 0xFFE#16 }

theorem witness_StoredWordIsFetchedNext :
    1 ≤ (1 : Reg).val ∧ overwriting.i = overwriting.pc ∧ overwriting.pc.toNat + 1 < 4096 ∧
    overwriting.halted = false ∧ 1 ≤ (15 : Reg).val ∧
    ∃ t, exec (.ldMemVx 1) overwriting = .next t ∧ encode (.jp 0x234#12) = t.fetchWord :=
  ⟨by decide, by decide, by decide, by decide, by decide, _, rfl, by decide⟩

theorem witness_RandomByteMattersOnlyToRnd :
    ∀ x nn, decode (at0 0x6312).fetchWord ≠ .ok (.rnd x nn) := by
  intro x nn
  rw [show decode (at0 0x6312).fetchWord = .ok (.ldVxNn 3 0x12#8) by decide]
  simp

theorem witness_RetPopsOrFallsThrough :
    { State.reset with stack := [0x204#16] }.stack = [] ++ [0x204#16] ∧ State.reset.stack = [] := by decide

theorem witness_CallPushesOrOverflows :
    { State.reset with stack := List.replicate 15 0x202#16 }.stack.length < 16 ∧
    (deep 0x2300).stack.length = 16 ∧ (deep 0x2300).pc = 0x1FE#16 + 2 := by decide

/-- A call that fills the last entry, and a subroutine that changed a register and jumped. -/
theorem witness_RetResumesAfterCall :
    { State.reset with stack := List.replicate 15 0x202#16 }.stack.length < 16 ∧
    ∃ t u : State, exec (.call 0x300#12) { State.reset with stack := List.replicate 15 0x202#16 } = .next t ∧
      u.stack = t.stack ∧ u.getV 3 ≠ t.getV 3 ∧ u.pc ≠ t.pc :=
  ⟨by decide, _, (({ State.reset with stack := List.replicate 15 0x202#16 }.push 0x200#16).setPc
    0x310#16).setV 3 9, rfl, rfl, by decide, by decide⟩

/-- Equal and unequal operands of the four register skips, and `x` = `y`. -/
theorem witness_Skips :
    ((withV State.reset [(3, 0xFF)]).getV 3).toNat = (0xFF#8).toNat ∧
    ((withV State.reset [(3, 0xFE)]).getV 3).toNat ≠ (0xFF#8).toNat ∧
    ((withV State.reset [(1, 7), (2, 7)]).getV 1).toNat = ((withV State.reset [(1, 7), (2, 7)]).getV 2).toNat ∧
    ((withV State.reset [(1, 7), (2, 8)]).getV 1).toNat ≠ ((withV State.reset [(1, 7), (2, 8)]).getV 2).toNat := by
  decide

/-- A target at the first address without a cell. -/
theorem witness_IndexedJumpAddsV0 :
    (withV State.reset [(0, 1)]).halted = false ∧
    0x1000 ≤ (0xFFF#12).toNat + ((withV State.reset [(0, 1)]).getV 0).toNat := by decide

/-- The two sides of each flag's condition at its boundary, and a destination other than VF. -/
theorem witness_Flags :
    (1 : Reg) ≠ 15 ∧ (2 : Reg) ≠ 1 ∧ (2 : Reg) ≠ 15 ∧
    ((withV State.reset [(1, 0xFF), (2, 1)]).getV 1).toNat + ((withV State.reset [(1, 0xFF), (2, 1)]).getV 2).toNat > 255 ∧
    ((withV State.reset [(1, 0xFE), (2, 1)]).getV 1).toNat + ((withV State.reset [(1, 0xFE), (2, 1)]).getV 2).toNat ≤ 255 ∧
    ((withV State.reset [(1, 5), (2, 5)]).getV 1).toNat ≥ ((withV State.reset [(1, 5), (2, 5)]).getV 2).toNat ∧
    ((withV State.reset [(1, 4), (2, 5)]).getV 1).toNat < ((withV State.reset [(1, 4), (2, 5)]).getV 2).toNat := by
  decide

theorem witness_StepUsesTheSuppliedByte :
    (at0 0xC30F).halted = false ∧ (at0 0xC30F).fetchWord = wordXNN 0xC (3 : Reg).val (0x0F#8).toNat := by decide

/-- Stores and loads whose bytes fall on the last cell, on the first address without one, and, wrapped, on
address 0; and an address that is stored to by none of them. -/
theorem witness_BlockTransfersAndDigits :
    (effAddr 0xFFF#16 0).toNat < 4096 ∧ 4096 ≤ (effAddr 0xFFF#16 1).toNat ∧
    (effAddr 0xFFFF#16 1).toNat < 4096 ∧ (1 : Reg) ≤ 1 ∧ (1 : Reg) < 2 ∧
    (∀ k : Reg, k ≤ 1 → 0x300#16 ≠ effAddr 0xFFF#16 k.val) ∧
    (∀ k ≤ 2, 0x300#16 ≠ effAddr 0xFFE#16 k) := by decide

/-- The last block that lies in memory whole. -/
theorem witness_StoreThenLoadRestores :
    (∃ t, exec (.ldMemVx 15) (State.reset.setI 0xFF0#16) = .next t) ∧
    (State.reset.setI 0xFF0#16).i.toNat + (15 : Reg).val < 4096 := ⟨⟨_, rfl⟩, by decide⟩

/-- The sprite of V70, once over a clear screen and once over a set pixel. -/
def sprite : State := withV (withMem (State.reset.setI 0x300#16) 0x300 [0xC0]) [(1, 62), (2, 31)]

theorem witness_DrawXorsTheSprite :
    Collides (withPixels sprite [(63, 31)]) 62 31 1 ∧ ¬ Collides sprite 62 31 1 := by
  refine ⟨⟨63, 31, by decide, by decide, by decide, by decide⟩, ?_⟩
  rintro ⟨px, py, -, -, -, h⟩
  exact Bool.noConfusion (h.symm.trans (Frame.getPixel_blank px py))

theorem witness_OffScreenStartDrawsNothing :
    (64 ≤ ((withV sprite [(1, 64)]).getV 1).toNat ∨ 32 ≤ ((withV sprite [(1, 64)]).getV 2).toNat) ∧
    (64 ≤ ((withV sprite [(2, 32)]).getV 1).toNat ∨ 32 ≤ ((withV sprite [(2, 32)]).getV 2).toNat) := by
  decide

theorem witness_DrawingTwiceRestores :
    (1 : Reg) ≠ 15 ∧ (2 : Reg) ≠ 15 ∧
    (∃ t u, exec (.drw 1 2 1) sprite = .next t ∧ exec (.drw 1 2 1) t = .next u ∧ t.getV 15 = 0) ∧
    InBoundsBit sprite 62 31 1 ∧
    sprite.fb.getPixel 63 31 = false ∧ spriteBit sprite 62 31 1 63 31 = true :=
  ⟨by decide, by decide, ⟨_, _, rfl, rfl, by decide⟩, ⟨63, 31, by decide, by decide, by decide⟩, by decide,
    by decide⟩

/-- No key down; keys 15 and 3 down, 3 the lower; key 0 down. -/
theorem witness_KeyWaitSpinsOrLoadsLowestKey :
    (∀ k : Reg, State.reset.keys[k] = false) ∧
    (((State.reset.keySet 15 true).keySet 3 true).keys[(3 : Reg)] = true ∧
      ∀ j : Reg, j < 3 → ((State.reset.keySet 15 true).keySet 3 true).keys[j] = false) ∧
    ((State.reset.keySet 0 true).keys[(0 : Reg)] = true ∧
      ∀ j : Reg, j < 0 → (State.reset.keySet 0 true).keys[j] = false) := by decide

/-- Key 15 down, key 15 up, and the first number that is no key. -/
theorem witness_SkipsOnKey :
    (((withV (State.reset.keySet 15 true) [(2, 15)]).getV 2).toNat = (15 : Reg).val ∧
      (withV (State.reset.keySet 15 true) [(2, 15)]).keys[(15 : Reg)] = true) ∧
    (((withV State.reset [(2, 15)]).getV 2).toNat = (15 : Reg).val ∧
      (withV State.reset [(2, 15)]).keys[(15 : Reg)] = false) ∧
    16 ≤ ((withV State.reset [(2, 16)]).getV 2).toNat ∧ ((-1 : Int) < 0 ∨ 15 < (-1 : Int)) ∧
    ((16 : Int) < 0 ∨ 15 < (16 : Int)) := by decide

/-- Both sides of the statement's first condition, and the last font byte and the first byte after it. -/
theorem witness_ResetLeavesTheTableOfR35 :
    (∃ s t : State, t = (perform .reset s).1) ∧ (∃ t : State, t = State.reset) ∧
    (79#16).toNat < 80 ∧ 80 ≤ (80#16).toNat := ⟨⟨haltedState, _, rfl⟩, ⟨_, rfl⟩, by decide, by decide⟩

/-- The last byte that fits, and the addresses on both sides of a two-byte image. -/
theorem witness_LoadPlacesTheProgram :
    3583 < (List.replicate 3585 0xFF#8).length ∧ 0x200 + 3583 < 4096 ∧
    ((0x1FF#16).toNat < 0x200 ∨ 0x200 + [1#8, 2#8].length ≤ (0x1FF#16).toNat) ∧
    ((0x202#16).toNat < 0x200 ∨ 0x200 + [1#8, 2#8].length ≤ (0x202#16).toNat) ∧
    (∃ s' : State, s'.rndSupply = State.reset.rndSupply ∧ s'.rndDraws = State.reset.rndDraws ∧
      s'.pc ≠ State.reset.pc) :=
  ⟨by rw [List.length_replicate]; decide, by decide, by decide, by decide, haltedState, by decide, by decide,
    by decide⟩

theorem witness_TickLowersTimers : haltedState.halted = true ∧ State.reset.halted = false := by decide

theorem witness_TimersReachZeroAfterTheirTicks : (State.reset.setDt 0xFF).halted = false := by decide

/-- The lowest and the highest key, and the numbers next to them that are no key. -/
theorem witness_KeySetSetsOneKey :
    (0 : Int) = (0 : Reg).val ∧ (15 : Int) = (15 : Reg).val ∧ (15 : Int) ≠ (0 : Reg).val ∧
    ((-1 : Int) < 0 ∨ 15 < (-1 : Int)) ∧ ((16 : Int) < 0 ∨ 15 < (16 : Int)) := by decide

theorem witness_HostReadsChangeNothing :
    ((-1 : Int) < 0 ∨ 64 ≤ (-1 : Int) ∨ (0 : Int) < 0 ∨ 32 ≤ (0 : Int)) ∧
    ((63 : Int) < 0 ∨ 64 ≤ (63 : Int) ∨ (32 : Int) < 0 ∨ 32 ≤ (32 : Int)) := by decide

/-- For each kind of state, an instruction that writes it. -/
theorem witness_EachPieceOfStateHasItsWriters :
    (∃ t, exec (.ldMemVx 0) (withV (State.reset.setI 0x300#16) [(0, 9)]) = .next t ∧
      t.mem ≠ (withV (State.reset.setI 0x300#16) [(0, 9)]).mem ∧
      t.i ≠ (withV (State.reset.setI 0x300#16) [(0, 9)]).i) ∧
    (∃ t, exec .cls sprite = .next t) ∧
    (∃ t, exec (.drw 1 2 1) sprite = .next t ∧ t.fb.getPixel 63 31 ≠ sprite.fb.getPixel 63 31) ∧
    (∃ t, exec (.call 0x300#12) State.reset = .next t ∧ t.stack ≠ State.reset.stack) ∧
    (∃ t, exec (.ldDtVx 1) sprite = .next t ∧ t.dt ≠ sprite.dt) ∧
    (∃ t, exec (.ldStVx 1) sprite = .next t ∧ t.st ≠ sprite.st) ∧
    (∃ t, exec (.call 0x300#12) (deep 0x2300) = .next t ∧ t.halted ≠ (deep 0x2300).halted) :=
  ⟨⟨_, rfl, by decide, by decide⟩, ⟨_, rfl⟩, ⟨_, rfl, by decide⟩, ⟨_, rfl, by decide⟩, ⟨_, rfl, by decide⟩,
    ⟨_, rfl, by decide⟩, ⟨_, rfl, by decide⟩⟩

theorem witness_OnlyTheseInstructionsChangeVF :
    ∃ t, exec (.ldVxNn 15 1) State.reset = .next t ∧ t.getV 15 ≠ State.reset.getV 15 := ⟨_, rfl, by decide⟩

theorem witness_FaultsArePrecise :
    (∃ t, (at0 0x5001).halted = false ∧ (at0 0x5001).stack.length ≤ 16 ∧
      step (at0 0x5001) = .next t ∧ t.halted = true) ∧
    (∃ t, (deep 0x2300).halted = false ∧ (deep 0x2300).stack.length ≤ 16 ∧
      step (deep 0x2300) = .next t ∧ t.halted = true) :=
  ⟨⟨_, by decide, by decide, rfl, by decide⟩, ⟨_, by decide, by decide, rfl, by decide⟩⟩

/-- The two hypotheses of PcAfterEachInstruction, for an instruction fetched from 0x1FE. -/
def RunsFrom1FE (i : Instr) (s : State) : Prop := s.pc = 0x1FE#16 + 2 ∧ ∃ t, exec i s = .next t

/-- Every row of the table of R20, on both sides of the conditions of 2nnn and 00EE. -/
theorem witness_PcAfter_transfers :
    RunsFrom1FE (.jp 0xFFF#12) State.reset ∧
    (RunsFrom1FE (.call 0x300#12) { State.reset with stack := List.replicate 15 0x202#16 } ∧
      { State.reset with stack := List.replicate 15 0x202#16 }.stack.length < 16) ∧
    (RunsFrom1FE (.call 0x300#12) (deep 0x2300) ∧ ¬ (deep 0x2300).stack.length < 16) ∧
    RunsFrom1FE (.jpV0 0xFFF#12) (withV State.reset [(0, 0xFF)]) ∧
    (RunsFrom1FE .ret { State.reset with stack := [0x204#16] } ∧
      { State.reset with stack := [0x204#16] }.stack = [] ++ [0x204#16]) ∧
    (RunsFrom1FE .ret State.reset ∧ State.reset.stack = []) :=
  ⟨⟨by decide, _, rfl⟩, ⟨⟨by decide, _, rfl⟩, by decide⟩, ⟨⟨by decide, _, rfl⟩, by decide⟩,
    ⟨by decide, _, rfl⟩, ⟨⟨by decide, _, rfl⟩, rfl⟩, ⟨by decide, _, rfl⟩, rfl⟩

/-- The skips whose condition holds and those whose condition does not. -/
theorem witness_PcAfter_skips :
    (RunsFrom1FE (.seVxNn 0 0) State.reset ∧ State.reset.getV 0 = 0) ∧
    (RunsFrom1FE (.seVxNn 0 1) State.reset ∧ State.reset.getV 0 ≠ 1) ∧
    RunsFrom1FE (.sneVxNn 0 0) State.reset ∧ RunsFrom1FE (.sneVxNn 0 1) State.reset ∧
    (RunsFrom1FE (.seVxVy 0 1) State.reset ∧ State.reset.getV 0 = State.reset.getV 1) ∧
    (RunsFrom1FE (.seVxVy 0 1) (withV State.reset [(1, 1)]) ∧
      (withV State.reset [(1, 1)]).getV 0 ≠ (withV State.reset [(1, 1)]).getV 1) ∧
    RunsFrom1FE (.sneVxVy 0 1) State.reset ∧ RunsFrom1FE (.sneVxVy 0 1) (withV State.reset [(1, 1)]) ∧
    (RunsFrom1FE (.skp 0) (State.reset.keySet 0 true) ∧
      (State.reset.keySet 0 true).isDown ((State.reset.keySet 0 true).getV 0).toNat = true) ∧
    (RunsFrom1FE (.skp 0) State.reset ∧ State.reset.isDown (State.reset.getV 0).toNat = false) ∧
    RunsFrom1FE (.sknp 0) (State.reset.keySet 0 true) ∧ RunsFrom1FE (.sknp 0) State.reset :=
  ⟨⟨⟨by decide, _, rfl⟩, by decide⟩, ⟨⟨by decide, _, rfl⟩, by decide⟩, ⟨by decide, _, rfl⟩, ⟨by decide, _, rfl⟩,
    ⟨⟨by decide, _, rfl⟩, by decide⟩, ⟨⟨by decide, _, rfl⟩, by decide⟩, ⟨by decide, _, rfl⟩, ⟨by decide, _, rfl⟩,
    ⟨⟨by decide, _, rfl⟩, by decide⟩, ⟨⟨by decide, _, rfl⟩, by decide⟩, ⟨by decide, _, rfl⟩, by decide, _, rfl⟩

/-- The key wait with a key down and with none, every other instruction, and an invalid word. -/
theorem witness_PcAfter_others :
    (RunsFrom1FE (.ldVxK 3) (State.reset.keySet 15 true) ∧
      ∃ k : Reg, (State.reset.keySet 15 true).keys[k] = true) ∧
    (RunsFrom1FE (.ldVxK 3) State.reset ∧ ¬ ∃ k : Reg, State.reset.keys[k] = true) ∧
    RunsFrom1FE (.drw 1 2 1) sprite ∧ RunsFrom1FE (.ldMemVx 15) State.reset ∧
    (at0 0x5001).halted = false ∧ decode (at0 0x5001).fetchWord = .error .group5 :=
  ⟨⟨⟨by decide, _, rfl⟩, 15, by decide⟩, ⟨⟨by decide, _, rfl⟩, by decide⟩, ⟨by decide, _, rfl⟩,
    ⟨by decide, _, rfl⟩, by decide, by decide⟩

theorem witness_SelfJumpLeavesTheState : (at0 0x1200).atSelfJump :=
  ⟨by unfold State.Running; decide, 0x200#12, by decide, by decide⟩

theorem witness_HaltedMachineIsFrozen :
    haltedState.halted = true ∧ HostOp.tick ≠ .reset ∧ (∀ bytes, HostOp.tick ≠ .load bytes) ∧
    (∀ k d, HostOp.tick ≠ .keySet k d) ∧ HostOp.keySet 3 true ≠ .reset ∧
    (∀ bytes, HostOp.keySet 3 true ≠ .load bytes) := by
  refine ⟨by decide, by decide, ?_, ?_, by decide, ?_⟩ <;> simp

/-- A state other than reset that meets the invariant and steps on: a call with a program in memory. -/
theorem witness_EveryStepKeepsTheInvariant :
    (at0 0x2300).Inv ∧ ∃ t, step (at0 0x2300) = .next t ∧ t.stack ≠ (at0 0x2300).stack := by
  refine ⟨⟨by decide, ⟨by decide, fun w hw => ?_⟩, ⟨by decide, by decide⟩, by decide, by decide⟩, _, rfl,
    by decide⟩
  exact absurd (show w ∈ ([] : List Word) from hw) (List.not_mem_nil)

theorem witness_EveryReachableStateMeetsTheInvariant :
    ∃ s : State, s.Reachable ∧ s.stack = [0x202#16] :=
  ⟨_, ⟨[.load [0x23, 0x00], .step 0], rfl⟩, by decide⟩

/-- A safe run: a program that ends in a jump to itself. -/
theorem witness_SafeRun : SafeRun [.load [0x12, 0x00], .step 0, .tick] State.reset := by
  unfold SafeRun State.Running; decide

end Sys2Proof.Tests
end

section
/-! The family of `10_state.md`: what an instruction can do to each piece of the state (R15 to R31), the
invariant of R37 over every step and every operation of the host, and the reset table (R35). -/

namespace Sys2Proof.Machine

/-! ## What an instruction can do to the state -/

section Effects
variable {s t : State}

/-- 00EE (R84): nothing on an empty stack, else the newest entry goes to `PC`. -/
theorem exec_ret_cases (h : exec .ret s = .next t) :
    (s.stack = [] ∧ t = s) ∨
    ∃ ws w, s.stack = ws ++ [w] ∧ t = { s with stack := ws, pc := w } := by
  rcases s.pop?_cases with ⟨hs, hp⟩ | ⟨ws, w, hs, hp⟩ <;> simp only [exec, execRet, hp] at h
  · exact .inl ⟨hs, (Host.Outcome.next.inj h).symm⟩
  · exact .inr ⟨ws, w, hs, (Host.Outcome.next.inj h).symm⟩

/-- 2nnn (R86): the call where the stack has room, else the fault StackOverflow (R135). -/
theorem exec_call_cases {nnn : Addr12} (h : exec (.call nnn) s = .next t) :
    (s.stack.length < 16 ∧ t = (s.push s.pc).setPc (zextAddr nnn)) ∨
    (16 ≤ s.stack.length ∧ t = s.raiseFault .stackOverflow (encode (.call nnn)) s.pc0) := by
  by_cases hlt : s.sp < Config.stackDepth <;> simp only [exec, execCall, hlt, if_true, if_false] at h
  · exact .inl ⟨hlt, (Host.Outcome.next.inj h).symm⟩
  · exact .inr ⟨Nat.not_lt.1 hlt, (Host.Outcome.next.inj h).symm⟩

/-- Fx0A (R127): the lowest key down is loaded, or, with none down, `PC` goes back. -/
theorem exec_ldVxK_cases {x : Reg} (h : exec (.ldVxK x) s = .next t) :
    (∃ k, s.firstDown = some k ∧ t = s.setV x (BitVec.ofNat 8 k.val)) ∨
    (s.firstDown = none ∧ t = s.setPc s.pc0) := by
  cases hk : s.firstDown <;> simp only [exec, execLdVxK, hk] at h
  case some k => exact .inl ⟨k, rfl, (Host.Outcome.next.inj h).symm⟩
  case none => exact .inr ⟨rfl, (Host.Outcome.next.inj h).symm⟩

/-- Where an instruction that writes only `PC` can put it, from the post-fetch `PC` of `s`: nowhere new, a
skip (R83), back to the instruction itself (R127), or a jump's target (R85, R91). -/
inductive PcTarget (s : State) : Word → Prop where
  | same : PcTarget s s.pc
  | skip : PcTarget s (s.pc + Config.insnBytes)
  | again : PcTarget s s.pc0
  | jump (nnn : Addr12) : PcTarget s (zextAddr nnn)
  | indexed (nnn : Addr12) (b : Byte) : PcTarget s (zextAddr nnn + zextByte b)

/-- The pieces of the state an instruction writes; the invariant needs the values of `PC`, the stack and
memory, so these are given, the others are any. -/
inductive Effect (s : State) : Instr → State → Prop where
  | registers (i : Instr) (v : Vector Byte 16) (supply : List Byte) (draws : Nat) :
      Effect s i { s with v := v, rndSupply := supply, rndDraws := draws }
  | goTo (i : Instr) {w : Word} (hw : PcTarget s w) : Effect s i (s.setPc w)
  | clear (f : Frame) : Effect s .cls (s.setFb f)
  | draw (x y : Reg) (n : Fin 16) (f : Frame) (b : Byte) : Effect s (.drw x y n) ((s.setFb f).setV VF b)
  | setIndex (nnn : Addr12) (w : Word) : Effect s (.ldINnn nnn) (s.setI w)
  | addIndex (x : Reg) (w : Word) : Effect s (.addIVx x) (s.setI w)
  | glyph (x : Reg) (w : Word) : Effect s (.ldFVx x) (s.setI w)
  | digits (x : Reg) : Effect s (.ldBVx x) (s.setMem (storeDigits s.mem s.i (s.getV x)))
  | store (x : Reg) (w : Word) : Effect s (.ldMemVx x) ((s.setMem (storeRegs s (regsUpTo x))).setI w)
  | load (x : Reg) (v : Vector Byte 16) (w : Word) : Effect s (.ldVxMem x) { s with v := v, i := w }
  | delay (x : Reg) (b : Byte) : Effect s (.ldDtVx x) (s.setDt b)
  | sound (x : Reg) (b : Byte) : Effect s (.ldStVx x) (s.setSt b)
  | ret {ws : List Word} {w : Word} (hs : s.stack = ws ++ [w]) :
      Effect s .ret { s with stack := ws, pc := w }
  | call (nnn : Addr12) (hlt : s.stack.length < 16) :
      Effect s (.call nnn) ((s.push s.pc).setPc (zextAddr nnn))
  | overflow (nnn : Addr12) (hge : 16 ≤ s.stack.length) (op pc0 : Word) :
      Effect s (.call nnn) (s.raiseFault .stackOverflow op pc0)

theorem Effect.skipIf (i : Instr) (c : Bool) : Effect s i (s.skipIf c) := by
  cases c with
  | false => exact .goTo i .same
  | true => exact .goTo i .skip

theorem Effect.rnd (x : Reg) (nn b : Byte) : Effect s (.rnd x nn) (s.rndUsed.setV x b) := by
  unfold State.rndUsed
  split <;> exact .registers _ _ _ _

theorem Effect.loadRegs (x : Reg) (w : Word) :
    Effect s (.ldVxMem x) ((loadRegs s (regsUpTo x)).setI w) := by
  rw [loadRegs_eq]
  exact .load _ _ _

/-- Every instruction writes only what its effect names. -/
theorem exec_effect {i : Instr} (h : exec i s = .next t) : Effect s i t := by
  cases i with
  | ret =>
    rcases exec_ret_cases h with ⟨-, rfl⟩ | ⟨ws, w, hs, rfl⟩
    · exact .goTo _ .same
    · exact .ret hs
  | call nnn =>
    rcases exec_call_cases h with ⟨hlt, rfl⟩ | ⟨hge, rfl⟩
    · exact .call nnn hlt
    · exact .overflow nnn hge _ _
  | ldVxK x =>
    rcases exec_ldVxK_cases h with ⟨k, -, rfl⟩ | ⟨-, rfl⟩
    · exact .registers _ _ _ _
    · exact .goTo _ .again
  | cls => obtain rfl := Host.Outcome.next.inj h; exact .clear _
  | drw x y n => obtain rfl := Host.Outcome.next.inj h; exact .draw ..
  | jp nnn => obtain rfl := Host.Outcome.next.inj h; exact .goTo _ (.jump nnn)
  | jpV0 nnn => obtain rfl := Host.Outcome.next.inj h; exact .goTo _ (.indexed nnn _)
  | seVxNn _ _ | sneVxNn _ _ | seVxVy _ _ | sneVxVy _ _ | skp _ | sknp _ =>
    obtain rfl := Host.Outcome.next.inj h; exact .skipIf _ _
  | rnd x nn => obtain rfl := Host.Outcome.next.inj h; exact .rnd ..
  | ldINnn nnn => obtain rfl := Host.Outcome.next.inj h; exact .setIndex ..
  | addIVx x => obtain rfl := Host.Outcome.next.inj h; exact .addIndex ..
  | ldFVx x => obtain rfl := Host.Outcome.next.inj h; exact .glyph ..
  | ldBVx x => obtain rfl := Host.Outcome.next.inj h; exact .digits x
  | ldMemVx x => obtain rfl := Host.Outcome.next.inj h; exact .store ..
  | ldVxMem x => obtain rfl := Host.Outcome.next.inj h; exact .loadRegs ..
  | ldDtVx x => obtain rfl := Host.Outcome.next.inj h; exact .delay ..
  | ldStVx x => obtain rfl := Host.Outcome.next.inj h; exact .sound ..
  | _ => obtain rfl := Host.Outcome.next.inj h; exact .registers ..

end Effects

/-! ## The invariant of R37 -/

section Invariant
variable {s t : State}

/-- The invariant speaks of memory, the stack, the fault registers and `PC` alone. -/
theorem State.Inv.congr (h : s.Inv) (hmem : t.mem = s.mem) (hstack : t.stack = s.stack)
    (hhalted : t.halted = s.halted) (hcause : t.faultCause = s.faultCause)
    (hopcode : t.faultOpcode = s.faultOpcode) (hfpc : t.faultPc = s.faultPc) (hpc : t.pc = s.pc) :
    t.Inv where
  memory := by rw [hmem]; exact h.memory
  stack := by unfold State.stackOk; rw [hstack]; exact h.stack
  report := by unfold State.reportOk; rw [hhalted, hcause, hopcode, hfpc]; exact h.report
  pcBound := by unfold State.pcOk; rw [hhalted, hpc]; exact h.pcBound

/-- The state an instruction fetched from memory is given: `PC` is 2 to 0x1001 (R37). -/
structure State.PostFetch (s : State) : Prop where
  inv : s.Inv
  pc_ge : 2 ≤ s.pc.toNat
  pc_le : s.pc.toNat ≤ 0x1001

theorem zextAddr_toNat (nnn : Addr12) : (zextAddr nnn).toNat = nnn.toNat := by
  have := nnn.isLt
  simp only [zextAddr, BitVec.toNat_setWidth]
  omega

theorem zextByte_toNat (b : Byte) : (zextByte b).toNat = b.toNat := by
  have := b.isLt
  simp only [zextByte, BitVec.toNat_setWidth]
  omega

/-- A jump, a skip and the key wait stay at or below 0xFFF + 0xFF, the greatest target of Bnnn (R21). -/
theorem PcTarget.toNat_le {w : Word} (hw : PcTarget s w) (hs : s.PostFetch) : w.toNat ≤ 0x10FE := by
  have hge := hs.pc_ge
  have hle := hs.pc_le
  cases hw with
  | same => omega
  | skip => simp only [Config.insnBytes, BitVec.toNat_add, BitVec.toNat_ofNat]; omega
  | again => simp only [State.pc0, Config.insnBytes, BitVec.toNat_sub, BitVec.toNat_ofNat]; omega
  | jump nnn => have := nnn.isLt; rw [zextAddr_toNat]; omega
  | indexed nnn b =>
    have := nnn.isLt
    have := b.isLt
    rw [BitVec.toNat_add, zextAddr_toNat, zextByte_toNat]
    omega

/-- A running machine may go to any address at or below 0x10FE. -/
theorem State.Inv.setPc (h : s.Inv) {w : Word} (hw : w.toNat ≤ 0x10FE) : (s.setPc w).Inv :=
  ⟨h.memory, h.stack, h.report, by rw [State.setPc_pc]; omega, fun _ => hw⟩

theorem State.Inv.setMem (h : s.Inv) {m : Memory} (hm : m.wf) : (s.setMem m).Inv :=
  ⟨hm, h.stack, h.report, h.pcBound⟩

/-- A call stores the post-fetch `PC`, which is a legal return address. -/
theorem State.PostFetch.push (h : s.PostFetch) (hlt : s.stack.length < 16) : (s.push s.pc).Inv := by
  obtain ⟨-, hentries⟩ := h.inv.stack
  refine ⟨h.inv.memory, ⟨?_, fun w hw => ?_⟩, h.inv.report, h.inv.pcBound⟩
  · simp only [State.push_stack, List.length_append, List.length_singleton, Config.stackDepth]
    omega
  · rcases List.mem_append.1 hw with hw | hw
    · exact hentries w hw
    · rw [List.mem_singleton.1 hw]
      exact ⟨h.pc_ge, h.pc_le⟩

/-- A return leaves a shorter stack and takes a legal return address. -/
theorem State.Inv.ret (h : s.Inv) {ws : List Word} {w : Word} (hs : s.stack = ws ++ [w]) :
    { s with stack := ws, pc := w : State }.Inv := by
  obtain ⟨hlen, hentries⟩ := h.stack
  rw [hs] at hlen hentries
  have hw : w.toNat ≤ 0x1001 := (hentries w (by simp)).2
  rw [List.length_append] at hlen
  have hws : { s with stack := ws, pc := w : State }.stackOk :=
    ⟨(Nat.le_add_right _ _).trans hlen, fun v hv => hentries v (List.mem_append_left _ hv)⟩
  exact ⟨h.memory, hws, h.report, hw.trans (by decide), fun _ => hw.trans (by decide)⟩

/-- A fault entry records a cause and sets the latch together (R139). -/
theorem State.Inv.raiseFault (h : s.Inv) {c : FaultCause} (hc : c ≠ .none) (op pc0 : Word) :
    (s.raiseFault c op pc0).Inv where
  memory := h.memory
  stack := h.stack
  report := by simp [State.reportOk, hc]
  pcBound := by simpa [State.pcOk] using h.pcBound.1

/-- Every effect of an instruction keeps the invariant. -/
theorem Effect.inv {i : Instr} (e : Effect s i t) (hs : s.PostFetch) : t.Inv := by
  have h := hs.inv
  cases e with
  | goTo i hw => exact h.setPc (hw.toNat_le hs)
  | digits x => exact h.setMem (wf_storeDigits h.memory _ _)
  | store x w => exact (h.setMem (wf_storeRegs h.memory _)).congr rfl rfl rfl rfl rfl rfl rfl
  | ret hstack => exact h.ret hstack
  | call nnn hlt => exact (hs.push hlt).setPc ((PcTarget.jump nnn).toNat_le hs)
  | overflow nnn hge op pc0 => exact h.raiseFault (by decide) op pc0
  | _ => exact h.congr rfl rfl rfl rfl rfl rfl rfl

/-- Past the end of memory the word fetched is 0x0000, which is no instruction (R40, R70). -/
theorem State.fetchWord_of_pc_ge (hge : 4096 ≤ s.pc.toNat) (hle : s.pc.toNat < 0xFFFF) :
    s.fetchWord = 0#16 := by
  have hnext : 4096 ≤ (s.pc + 1).toNat := by bv_omega
  rw [State.fetchWord, Memory.read_of_ge hge, Memory.read_of_ge hnext]
  rfl

/-- An instruction is fetched from memory only, so its post-fetch `PC` is 2 to 0x1001. -/
theorem State.Inv.postFetch (h : s.Inv) (hrun : s.halted = false) {i : Instr}
    (hd : decode s.fetchWord = .ok i) : s.advancePc.PostFetch := by
  have hpc : s.pc.toNat ≤ 0x10FE := h.pcBound.2 hrun
  have hlt : s.pc.toNat < 4096 := by
    by_contra hge
    rw [State.fetchWord_of_pc_ge (by omega) (by omega)] at hd
    exact absurd hd (by simp [show decode 0#16 = .error .group0 by decide])
  have hadv : s.advancePc.pc.toNat = s.pc.toNat + 2 := by
    simp only [State.advancePc_pc, Config.insnBytes, BitVec.toNat_add, BitVec.toNat_ofNat]
    omega
  exact ⟨h.setPc (by rw [← State.advancePc_pc, hadv]; omega), by omega, by omega⟩

/-- The fault entry for a word that is no instruction: `PC` goes 2 past a `PC` of at most 0x10FE. -/
theorem State.Inv.invalidOpcode (h : s.Inv) (hrun : s.halted = false) (op pc0 : Word) :
    (s.advancePc.raiseFault .invalidOpcode op pc0).Inv := by
  have hpc : s.pc.toNat ≤ 0x10FE := h.pcBound.2 hrun
  refine ⟨h.memory, h.stack, by simp [State.reportOk], ?_, by simp⟩
  simp only [State.raiseFault_pc, State.advancePc_pc, Config.insnBytes, BitVec.toNat_add,
    BitVec.toNat_ofNat]
  omega

/-- Every step keeps the invariant. -/
theorem step_inv (h : s.Inv) (hst : step s = .next t) : t.Inv := by
  rcases step_cases s with ⟨-, hf⟩ | ⟨hrun, i, hd, he⟩ | ⟨hrun, e, -, he⟩
  · rw [hf] at hst
    cases hst
  · exact (exec_effect (he ▸ hst)).inv (h.postFetch hrun hd)
  · rw [he] at hst
    obtain rfl := Host.Outcome.next.inj hst
    exact h.invalidOpcode hrun _ _

/-! ### The operations of the host (R9) -/

theorem reset_inv : State.reset.Inv :=
  ⟨Memory.wf_nil, ⟨by decide, fun _ hw => absurd hw List.not_mem_nil⟩,
    ⟨by decide, by decide⟩, by decide, by decide⟩

theorem doReset_inv (s : State) : s.doReset.Inv := reset_inv.congr rfl rfl rfl rfl rfl rfl rfl

theorem doLoad_inv (s : State) (bytes : List Byte) : (s.doLoad bytes).Inv :=
  (doReset_inv s).setMem (Memory.wf_load (doReset_inv s).memory _ _)

theorem doTick_inv (h : s.Inv) : s.doTick.Inv := by
  unfold State.doTick
  split
  · exact h
  · exact h.congr rfl rfl rfl rfl rfl rfl rfl

theorem keySet_inv (h : s.Inv) (key : Int) (down : Bool) : (s.keySet key down).Inv :=
  h.congr (by simp) (by simp) (by simp) (by simp) (by simp) (by simp) (by simp)

/-- What `STEP(rnd)` can do, in terms of a step that is supplied `rnd`. -/
theorem performStep_cases (rnd : Byte) (s : State) :
    (∃ t, step { s with rndSupply := [rnd] } = .next t ∧
      (performStep rnd s).1 = { t with rndSupply := s.rndSupply }) ∨
    (performStep rnd s).1 = s := by
  unfold performStep stepWith
  cases hst : step { s with rndSupply := [rnd] } with
  | next t => exact .inl ⟨t, rfl, rfl⟩
  | fault r => exact .inr rfl
  | refused r => exact .inr rfl

theorem performStep_inv (h : s.Inv) (rnd : Byte) : (performStep rnd s).1.Inv := by
  rcases performStep_cases rnd s with ⟨t, hst, ht⟩ | hs
  · have hsupplied : { s with rndSupply := [rnd] : State }.Inv := h.congr rfl rfl rfl rfl rfl rfl rfl
    rw [ht]
    exact (step_inv hsupplied hst).congr rfl rfl rfl rfl rfl rfl rfl
  · rwa [hs]

/-- Every operation of the host keeps the invariant. -/
theorem perform_inv (h : s.Inv) (op : HostOp) : (perform op s).1.Inv := by
  cases op with
  | reset => exact doReset_inv s
  | load bytes => exact doLoad_inv s bytes
  | step rnd => exact performStep_inv h rnd
  | tick => exact doTick_inv h
  | keySet key down => exact keySet_inv h key down
  | getPixel _ _ | sound | faultStatus => exact h

theorem runOps_inv (ops : List HostOp) (h : s.Inv) : (runOps ops s).Inv := by
  induction ops generalizing s with
  | nil => exact h
  | cons op ops ih => exact ih (perform_inv h op)

end Invariant

/-- Settles O57, by what a step can do and the effect of the instruction it runs. -/
theorem everyStepKeepsTheInvariant : Obligations.EveryStepKeepsTheInvariant :=
  fun _ _ h hst => step_inv h hst

/-- Settles O58, by induction on the list of operations. -/
theorem everyReachableStateMeetsTheInvariant : Obligations.EveryReachableStateMeetsTheInvariant := by
  refine ⟨fun op _ h => perform_inv h op, ?_⟩
  rintro _ ⟨ops, rfl⟩
  exact runOps_inv ops reset_inv

/-- Settles O56. -/
theorem invariantHoldsAtReset : Obligations.InvariantHoldsAtReset := reset_inv

/-! ## Who writes what (R16, R18, R25, R29 to R31) -/

/-- Settles O50: each piece of the state that differs names the effect, and so the instruction. -/
theorem eachPieceOfStateHasItsWriters : Obligations.EachPieceOfStateHasItsWriters := by
  intro i s t h
  cases exec_effect h with
  | overflow nnn hge op pc0 => simp [hge]
  | _ => simp

/-- A write to one register changes no other. -/
theorem State.eq_of_getV_setV_ne {s : State} {x y : Reg} {b : Byte}
    (h : (s.setV x b).getV y ≠ s.getV y) : x = y := by
  by_contra hne
  exact h (by simp [Ne.symm hne])

/-- A block load reaches VF only as its last register. -/
theorem eq_of_getV_loadRegs_ne {s : State} {x : Reg}
    (h : (loadRegs s (regsUpTo x)).getV 15 ≠ s.getV 15) : x = 15 := by
  by_contra hne
  have hlt : ¬ (15 : Reg) ≤ x := fun hle => hne (Fin.last_le_iff.1 hle)
  exact h (by simp [getV_loadRegs, hlt])

/-- Settles O51: a flag-writing instruction is in the list whatever it does; an ordinary destination that
changes VF is VF; every other instruction leaves VF as it was. -/
theorem onlyTheseInstructionsChangeVF : Obligations.OnlyTheseInstructionsChangeVF := by
  intro i s t h hne
  cases i with
  | or x y | and x y | xor x y | addVxVy x y | sub x y | subn x y | shr x y | shl x y =>
    exact .inl ⟨x, y, by simp⟩
  | drw x y n => exact .inl ⟨x, y, by simp⟩
  | ldVxNn x nn | addVxNn x nn =>
    obtain rfl := Host.Outcome.next.inj h
    obtain rfl := State.eq_of_getV_setV_ne hne
    exact .inr (.inl ⟨nn, by simp⟩)
  | rnd x nn =>
    obtain rfl := Host.Outcome.next.inj h
    obtain rfl := State.eq_of_getV_setV_ne (s := s.rndUsed) (by rwa [State.getV_rndUsed])
    exact .inr (.inl ⟨nn, by simp⟩)
  | ldVxVy x y =>
    obtain rfl := Host.Outcome.next.inj h
    obtain rfl := State.eq_of_getV_setV_ne hne
    exact .inr (.inr (.inl ⟨y, rfl⟩))
  | ldVxDt x =>
    obtain rfl := Host.Outcome.next.inj h
    obtain rfl := State.eq_of_getV_setV_ne hne
    simp
  | ldVxK x =>
    rcases exec_ldVxK_cases h with ⟨k, -, rfl⟩ | ⟨-, rfl⟩
    · obtain rfl := State.eq_of_getV_setV_ne hne
      simp
    · exact absurd (State.getV_setPc _ _ _) hne
  | ldVxMem x =>
    obtain rfl := Host.Outcome.next.inj h
    obtain rfl := eq_of_getV_loadRegs_ne hne
    simp
  | ret =>
    rcases exec_ret_cases h with ⟨-, rfl⟩ | ⟨ws, w, -, rfl⟩ <;> exact absurd rfl hne
  | call nnn =>
    rcases exec_call_cases h with ⟨-, rfl⟩ | ⟨-, rfl⟩ <;> exact absurd rfl hne
  | _ =>
    obtain rfl := Host.Outcome.next.inj h
    exact absurd (by simp) hne

/-! ## `PC` after each instruction (R20) -/

/-- The fetch and a skip advance `PC` by 4 together (R83). -/
theorem fetch_then_skip (pc0 : Word) : pc0 + 2#16 + Config.insnBytes = pc0 + 4#16 := by
  rw [Config.insnBytes, BitVec.add_assoc]
  rfl

theorem State.pc0_of {s : State} {pc0 : Word} (hpc : s.pc = pc0 + 2) : s.pc0 = pc0 := by
  simp [State.pc0, hpc, Config.insnBytes]

/-- Settles O53: a row of R20 for each instruction that writes `PC`, one argument for all the others. -/
theorem pcAfterEachInstruction : Obligations.PcAfterEachInstruction := by
  refine ⟨fun i s t pc0 hpc h => ?_, fun s e hrun hd => ?_⟩
  · cases i with
    | jp nnn | jpV0 nnn => obtain rfl := Host.Outcome.next.inj h; rfl
    | call nnn =>
      rcases exec_call_cases h with ⟨hlt, rfl⟩ | ⟨hge, rfl⟩
      · simp [hlt]
      · simp [Nat.not_lt.2 hge, hpc]
    | ret =>
      rcases exec_ret_cases h with ⟨hs, rfl⟩ | ⟨ws, w, hs, rfl⟩
      · simp [hs, hpc]
      · simp [hs]
    | seVxNn x nn | sneVxNn x nn | seVxVy x y | sneVxVy x y | skp x =>
      obtain rfl := Host.Outcome.next.inj h
      simp [hpc, fetch_then_skip, asInt]
    | sknp x =>
      obtain rfl := Host.Outcome.next.inj h
      cases hkey : s.isDown (s.getV x).toNat <;> simp [hpc, fetch_then_skip, asInt, hkey]
    | ldVxK x =>
      rcases exec_ldVxK_cases h with ⟨k, hk, rfl⟩ | ⟨hk, rfl⟩
      · have hdown : ∃ k : Reg, s.keys[k] = true := ⟨k, (State.firstDown_some hk).1⟩
        exact hpc.trans (if_pos hdown).symm
      · have hup : ¬ ∃ k : Reg, s.keys[k] = true := by simp [State.firstDown_none.1 hk]
        exact (State.pc0_of hpc).trans (if_neg hup).symm
    | ldVxMem x =>
      obtain rfl := Host.Outcome.next.inj h
      rw [loadRegs_eq]
      exact hpc
    | _ =>
      obtain rfl := Host.Outcome.next.inj h
      simpa using hpc
  · rcases step_cases s with ⟨hh, -⟩ | ⟨-, i, hi, -⟩ | ⟨-, e', -, hst⟩
    · simp [hrun] at hh
    · simp [hd] at hi
    · exact ⟨_, hst, rfl, rfl⟩

/-! ## The reset table (R35) -/

/-- Memory right after reset: the font at 0x000 to 0x04F (R47), zero elsewhere. -/
theorem Memory.read_nil_of_lt {a : Word} (h : a.toNat < 80) :
    Memory.read [] a = Config.font.getD a.toNat 0 := by
  rw [Memory.read_of_lt (by omega), Memory.cell_nil, Memory.unlisted]

theorem Memory.read_nil_of_ge {a : Word} (h : 80 ≤ a.toNat) : Memory.read [] a = 0 := by
  by_cases hlt : a.toNat < 4096
  · rw [Memory.read_of_lt hlt, Memory.cell_nil, Memory.unlisted_of_font_le h]
  · exact Memory.read_of_ge (by omega)

/-- Settles O43: `RESET` differs from the reset state only in the model's own two fields. -/
theorem resetLeavesTheTableOfR35 : Obligations.ResetLeavesTheTableOfR35 := by
  intro s t ht
  obtain ⟨supply, draws, rfl⟩ :
      ∃ supply draws, t = { State.reset with rndSupply := supply, rndDraws := draws } := by
    rcases ht with rfl | rfl
    · exact ⟨_, _, rfl⟩
    · exact ⟨_, _, rfl⟩
  exact ⟨by simp [State.getV, State.reset], rfl, rfl, rfl, rfl, rfl, fun a => Memory.read_nil_of_lt,
    fun a => Memory.read_nil_of_ge, Frame.getPixel_blank, by simp [State.reset], rfl, rfl, rfl, rfl⟩

end Sys2Proof.Machine
end

section
/-! Proofs of the memory statements: a fetch past the end of memory, and the fetch of a word that was
just stored. -/

namespace Sys2Proof

/-- Decoding what the encoder writes gives the instruction back (R69, R75): by the format, the fields of
the word are the operands. -/
@[simp] theorem decode_encode (i : Instr) : decode (encode i) = .ok i := by
  cases i with
  | cls | ret => rfl
  | jp nnn | call nnn | ldINnn nnn | jpV0 nnn => simp [decode, encode]
  | seVxNn x nn | sneVxNn x nn | ldVxNn x nn | addVxNn x nn | rnd x nn => simp [decode, encode]
  | seVxVy x y | sneVxVy x y | drw x y n => simp [decode, encode]
  | ldVxVy x y | or x y | and x y | xor x y | addVxVy x y | sub x y | shr x y | subn x y | shl x y =>
    simp [decode, encode, decode8]
  | skp x | sknp x => simp [decode, encode, decodeE]
  | ldVxDt x | ldVxK x | ldDtVx x | ldStVx x | addIVx x | ldFVx x | ldBVx x | ldMemVx x | ldVxMem x =>
    simp [decode, encode, decodeF]

end Sys2Proof

namespace Sys2Proof.Machine

/-! ## What a running machine's step does with the word it fetches (R81, R134) -/

theorem step_of_decode_ok {s : State} {i : Instr} (hd : decode s.fetchWord = .ok i)
    (hrun : s.halted = false) : step s = exec i s.advancePc := by
  simp [step, hrun, hd]

theorem step_of_decode_error {s : State} {e : Invalid} (hd : decode s.fetchWord = .error e)
    (hrun : s.halted = false) :
    step s = .next (s.advancePc.raiseFault .invalidOpcode s.fetchWord s.pc) := by
  simp [step, hrun, hd]

/-- Settles O8: both bytes fetched read as 0, and the word 0x0000 is no instruction. -/
theorem fetchPastMemoryRaisesInvalidOpcode : Obligations.FetchPastMemoryRaisesInvalidOpcode := by
  intro s hrun hge hle
  have hfetch : s.fetchWord = 0x0000#16 := State.fetchWord_of_pc_ge hge (by omega)
  have hd : decode s.fetchWord = .error .group0 := hfetch ▸ by decide
  rw [step_of_decode_error hd hrun, hfetch]
  rfl

/-! ## A stored word is the word fetched (R59) -/

/-- A block store with `x` at least 1 leaves `V[0]` and `V[1]` in the two cells from `I` on, and `PC` as it
was; so where `PC` is `I` they are the word fetched next. -/
theorem fetchWord_of_exec_ldMemVx {s t : State} {x : Reg} (ht : exec (.ldMemVx x) s = .next t)
    (hx : 1 ≤ x.val) (hi : s.i = s.pc) (hlt : s.pc.toNat + 1 < 4096) :
    t.fetchWord = wordOfBytes (s.getV 0) (s.getV 1) := by
  obtain rfl := Host.Outcome.next.inj ht
  have hhi := read_storeRegs s (mem_regsUpTo.2 (Fin.zero_le x))
  have hlo := read_storeRegs s (mem_regsUpTo.2 (Fin.le_def.2 hx : (1 : Reg) ≤ x))
  have hzero : effAddr s.i (0 : Reg).val = s.pc := (effAddr_zero s.i).trans hi
  have hone : effAddr s.i (1 : Reg).val = s.pc + 1 := congrArg (· + 1) hi
  have hnext : (s.pc + 1).toNat < 4096 := by bv_omega
  rw [hzero, if_pos (by omega)] at hhi
  rw [hone, if_pos hnext] at hlo
  exact congrArg₂ wordOfBytes hhi hlo

/-- Settles O9: the store reaches both bytes of the next fetch, and the step decodes the word they make. -/
theorem storedWordIsFetchedNext : Obligations.StoredWordIsFetchedNext := by
  intro x s hx hi hlt
  refine ⟨_, rfl, ?_, fun i hrun henc => ?_⟩
  · rw [fetchWord_of_exec_ldMemVx rfl hx hi hlt, wordOfBytes_toNat]
  · have hd := decode_encode i
    rw [henc] at hd
    exact step_of_decode_ok hd hrun

end Sys2Proof.Machine
end

section
/-! Proofs of the encoding statements: the encoder inverts the decoder, a row of the opcode table hits
exactly the words that decode to it, and what the invalid words are. -/

namespace Sys2Proof

/-! ## Bytes in memory order (R64) -/

/-- An instruction is decoded from its two bytes, and the bytes after them are left (R63, R64). -/
theorem decodeBytes_encodeBytes_append (i : Instr) (rest : List Byte) :
    decodeBytes (encodeBytes i ++ rest) = .ok (i, rest) := by
  simp [encodeBytes, bytesOfWord, decodeBytes, wordOfBytes_bytesOfWord]

/-- Settles O2, by the round trip of the word and that of its two bytes in memory order. -/
theorem decodeOfEncodeIsIdentity : Obligations.DecodeOfEncodeIsIdentity :=
  fun i rest _ => ⟨decode_encode i, decodeBytes_encodeBytes_append i rest⟩

/-! ## Encoding what was decoded (R67, R75) -/

theorem fieldP_lt (op : Word) : fieldP op < 16 := (op.extractLsb' 12 4).isLt

theorem encode_of_decode0 {op : Word} {i : Instr} (h : decode0 op = .ok i) : encode i = op := by
  unfold decode0 at h
  split_ifs at h with hcls hret
  · cases h; exact hcls.symm
  · cases h; exact hret.symm

theorem encode_of_decode8 {x y n : Fin 16} {i : Instr} (h : decode8 x y n.val = .ok i) :
    encode i = nibbles 0x8 x y n := by
  unfold decode8 at h
  split at h <;> cases h
  all_goals
    rename_i hn
    exact congrArg (nibbles 0x8 x y) (Fin.ext hn.symm)

theorem encode_of_decodeE {x : Reg} {nn : Byte} {i : Instr} (h : decodeE x nn = .ok i) :
    encode i = wordXI 0xE x nn := by
  unfold decodeE at h
  split_ifs at h <;> cases h <;> subst nn <;> rfl

theorem encode_of_decodeF {x : Reg} {nn : Byte} {i : Instr} (h : decodeF x nn = .ok i) :
    encode i = wordXI 0xF x nn := by
  unfold decodeF at h
  split_ifs at h <;> cases h <;> subst nn <;> rfl

/-- Decoding loses no bit of a valid word: the word is put together again from its fields, group by
group of R69. -/
theorem encode_of_decode {op : Word} {i : Instr} (h : decode op = .ok i) : encode i = op := by
  have hlt := fieldP_lt op
  unfold decode at h
  split at h
  case h_1 => exact encode_of_decode0 h
  case h_6 hp | h_10 hp =>
    split_ifs at h with hn
    cases h
    exact (congrArg (nibbles _ _ _) hn.symm).trans (eq_nibbles hp)
  case h_9 hp => exact (encode_of_decode8 h).trans (eq_nibbles hp)
  case h_14 hp => cases h; exact eq_nibbles hp
  case h_15 hp => exact (encode_of_decodeE h).trans (eq_wordXI hp)
  case h_16 =>
    have hp : fieldP op = 0xF := by simp only [imp_false] at *; omega
    exact (encode_of_decodeF h).trans (eq_wordXI hp)
  case h_2 hp | h_3 hp | h_11 hp | h_12 hp => cases h; exact eq_wordA hp
  case h_4 hp | h_5 hp | h_7 hp | h_8 hp | h_13 hp => cases h; exact eq_wordXI hp

/-- Settles O3: each group of the decoder keeps every field of the word in an operand or in the choice of
the instruction. -/
theorem encodeOfDecodeIsIdentity : Obligations.EncodeOfDecodeIsIdentity :=
  fun _ _ => encode_of_decode

/-! ## The rows of the opcode table (R75) -/

theorem OpRow.hits_iff {r : OpRow} {op : Word} : r.hits op = true ↔ op &&& r.mask = r.pattern := by
  simp [OpRow.hits]

/-- The family `Encoding` over all constructors: a row hits the word of each of its instructions. -/
theorem Laws.Encoding.statement_all (i : Instr) : Statement i :=
  match i with
  | .cls => cls
  | .ret => ret
  | .jp nnn => jp nnn
  | .call nnn => call nnn
  | .seVxNn x nn => seVxNn x nn
  | .sneVxNn x nn => sneVxNn x nn
  | .seVxVy x y => seVxVy x y
  | .ldVxNn x nn => ldVxNn x nn
  | .addVxNn x nn => addVxNn x nn
  | .ldVxVy x y => ldVxVy x y
  | .or x y => or x y
  | .and x y => and x y
  | .xor x y => xor x y
  | .addVxVy x y => addVxVy x y
  | .sub x y => sub x y
  | .shr x y => shr x y
  | .subn x y => subn x y
  | .shl x y => shl x y
  | .sneVxVy x y => sneVxVy x y
  | .ldINnn nnn => ldINnn nnn
  | .jpV0 nnn => jpV0 nnn
  | .rnd x nn => rnd x nn
  | .drw x y n => drw x y n
  | .skp x => skp x
  | .sknp x => sknp x
  | .ldVxDt x => ldVxDt x
  | .ldVxK x => ldVxK x
  | .ldDtVx x => ldDtVx x
  | .ldStVx x => ldStVx x
  | .addIVx x => addIVx x
  | .ldFVx x => ldFVx x
  | .ldBVx x => ldBVx x
  | .ldMemVx x => ldMemVx x
  | .ldVxMem x => ldVxMem x

theorem row_hits_of_decode {op : Word} {i : Instr} (h : decode op = .ok i) : i.row.hits op = true :=
  encode_of_decode h ▸ Laws.Encoding.statement_all i

/-! A mask keeps the fields in which all its bits are 1; the pattern then has them. -/

section Masks
variable {op mask pattern : Word}

theorem extractLsb'_eq_of_mask {start len : Nat}
    (hmask : mask.extractLsb' start len = BitVec.allOnes len) (h : op &&& mask = pattern) :
    op.extractLsb' start len = pattern.extractLsb' start len := by
  rw [← h, BitVec.extractLsb'_and, hmask, BitVec.and_allOnes]

theorem fieldP_of_mask (hmask : mask.extractLsb' 12 4 = BitVec.allOnes 4)
    (h : op &&& mask = pattern) : fieldP op = fieldP pattern :=
  congrArg BitVec.toNat (extractLsb'_eq_of_mask hmask h)

theorem fieldN_of_mask (hmask : mask.extractLsb' 0 4 = BitVec.allOnes 4)
    (h : op &&& mask = pattern) : fieldN op = fieldN pattern :=
  congrArg BitVec.toFin (extractLsb'_eq_of_mask hmask h)

theorem fieldNN_of_mask (hmask : mask.extractLsb' 0 8 = BitVec.allOnes 8)
    (h : op &&& mask = pattern) : fieldNN op = fieldNN pattern :=
  extractLsb'_eq_of_mask hmask h

end Masks

/-- A word that a row hits has the fields that the row's format fixes, so `decode` finds the row. -/
theorem decode_of_row_hits {op : Word} {i : Instr} (h : i.row.hits op = true) :
    ∃ j, decode op = .ok j ∧ j.row = i.row := by
  rw [OpRow.hits_iff] at h
  cases i with
  | cls | ret =>
    obtain rfl : op = _ := (BitVec.and_allOnes (x := op)).symm.trans h
    exact ⟨_, rfl, rfl⟩
  | jp nnn | call nnn | ldINnn nnn | jpV0 nnn | seVxNn x nn | sneVxNn x nn | ldVxNn x nn
  | addVxNn x nn | rnd x nn | drw x y n =>
    dsimp only [Instr.row] at h
    have hp := fieldP_of_mask (mask := 0xF000) (by decide) h
    rw [decode, hp]
    exact ⟨_, rfl, rfl⟩
  | seVxVy x y | sneVxVy x y | ldVxVy x y | or x y | and x y | xor x y | addVxVy x y | sub x y
  | shr x y | subn x y | shl x y =>
    dsimp only [Instr.row] at h
    have hp := fieldP_of_mask (mask := 0xF00F) (by decide) h
    have hn := fieldN_of_mask (mask := 0xF00F) (by decide) h
    rw [decode, hp, hn]
    exact ⟨_, rfl, rfl⟩
  | skp x | sknp x | ldVxDt x | ldVxK x | ldDtVx x | ldStVx x | addIVx x | ldFVx x | ldBVx x
  | ldMemVx x | ldVxMem x =>
    dsimp only [Instr.row] at h
    have hp := fieldP_of_mask (mask := 0xF0FF) (by decide) h
    have hnn := fieldNN_of_mask (mask := 0xF0FF) (by decide) h
    rw [decode, hp, hnn]
    exact ⟨_, rfl, rfl⟩

/-- Settles O4: a row hits exactly the words that decode to one of its instructions, and a word decodes to
one instruction only, so to one row. -/
theorem wordMatchesExactlyOneRow : Obligations.WordMatchesExactlyOneRow := by
  refine ⟨fun op i => ⟨decode_of_row_hits, fun ⟨j, hj, hrow⟩ => hrow ▸ row_hits_of_decode hj⟩,
    fun op i j hi hj => ?_⟩
  obtain ⟨k, hk, hki⟩ := decode_of_row_hits hi
  obtain ⟨l, hl, hlj⟩ := decode_of_row_hits hj
  obtain rfl : k = l := Except.ok.inj (hk.symm.trans hl)
  exact hki.symm.trans hlj

/-! ## The invalid words (R70 to R74, R76) -/

theorem decode0_error_iff {op : Word} :
    (∃ e, decode0 op = .error e) ↔ op ≠ 0x00E0#16 ∧ op ≠ 0x00EE#16 := by
  unfold decode0
  split_ifs <;> simp [*]

theorem decode8_error_iff {x y n : Fin 16} :
    (∃ e, decode8 x y n.val = .error e) ↔ n.val ∈ [0x8, 0x9, 0xA, 0xB, 0xC, 0xD, 0xF] := by
  fin_cases n <;> simp [decode8]

theorem decodeE_error_iff {x : Reg} {nn : Byte} :
    (∃ e, decodeE x nn = .error e) ↔ nn.toNat ∉ [0x9E, 0xA1] := by
  unfold decodeE
  split_ifs <;> simp_all [← BitVec.toNat_inj]

theorem decodeF_error_iff {x : Reg} {nn : Byte} :
    (∃ e, decodeF x nn = .error e) ↔
      nn.toNat ∉ [0x07, 0x0A, 0x15, 0x18, 0x1E, 0x29, 0x33, 0x55, 0x65] := by
  unfold decodeF
  split_ifs <;> simp_all [← BitVec.toNat_inj]

/-- The words that decode refuses, by their fields: one line of R76 for each group. -/
theorem decode_error_iff {op : Word} :
    (∃ e, decode op = .error e) ↔
      ((fieldP op = 0x0 ∧ op ≠ 0x00E0#16 ∧ op ≠ 0x00EE#16) ∨
       ((fieldP op = 0x5 ∨ fieldP op = 0x9) ∧ fieldN op ≠ 0) ∨
       (fieldP op = 0x8 ∧ (fieldN op).val ∈ [0x8, 0x9, 0xA, 0xB, 0xC, 0xD, 0xF]) ∨
       (fieldP op = 0xE ∧ (fieldNN op).toNat ∉ [0x9E, 0xA1]) ∨
       (fieldP op = 0xF ∧
         (fieldNN op).toNat ∉ [0x07, 0x0A, 0x15, 0x18, 0x1E, 0x29, 0x33, 0x55, 0x65])) := by
  have hlt := fieldP_lt op
  unfold decode
  split
  case h_1 hp => simp [hp, decode0_error_iff]
  case h_6 hp | h_10 hp => split_ifs with hn <;> simp [hp, hn]
  case h_9 hp => simp [hp, decode8_error_iff]
  case h_15 hp => simp [hp, decodeE_error_iff]
  case h_16 =>
    have hp : fieldP op = 0xF := by simp only [imp_false] at *; omega
    simp [hp, decodeF_error_iff]
  case h_2 hp | h_3 hp | h_4 hp | h_5 hp | h_7 hp | h_8 hp | h_11 hp | h_12 hp | h_13 hp | h_14 hp =>
    simp [hp]

/-- A running machine that fetches an invalid word halts with the fault InvalidOpcode (R76, R134). -/
theorem step_halts_of_decode_error {s : Machine.State} {e : Invalid} (hrun : s.halted = false)
    (hd : decode s.fetchWord = .error e) :
    ∃ t, Machine.step s = .next t ∧ t.halted = true ∧ t.faultCause = .invalidOpcode :=
  ⟨_, Machine.step_of_decode_error hd hrun, rfl, rfl⟩

/-- Settles O5: the list of R76 is the list by fields in other arithmetic; a valid word is hit by the row
of its instruction. -/
theorem invalidWordsAreThoseListed : Obligations.InvalidWordsAreThoseListed := by
  refine ⟨fun op => ?_, fun op hrows => ?_, fun s e => step_halts_of_decode_error⟩
  · have hlow : op.toNat < 0x1000 ↔ fieldP op = 0 := by rw [fieldP_eq]; omega
    have hn : op.toNat % 0x10 ≠ 0 ↔ fieldN op ≠ 0 := by simp [Fin.ext_iff, fieldN_val]
    rw [decode_error_iff, hlow, hn, ← fieldP_eq, ← fieldN_val, ← fieldNN_toNat]
  · cases hd : decode op with
    | error e => exact ⟨e, rfl⟩
    | ok i => exact absurd (row_hits_of_decode hd) (by simp [hrows i])

/-! ## Sample words (R71, R75) -/

/-- Settles O1, by evaluating the decoder on the thirteen words. -/
theorem sampleWordsDecode : Obligations.SampleWordsDecode := by
  unfold Obligations.SampleWordsDecode
  decide

end Sys2Proof
end

section
/-! Proofs of the step-cycle and control-transfer statements (`40_step_and_control_flow.md`): what a step
does with the word it fetches (R81, R82), and what each jump, call, return and skip does to `PC` and the
stack (R83 to R93). -/

namespace Sys2Proof

/-! ## The words of the claims as words of the encoder (R65, R75) -/

section ClaimWords
variable (p : BitVec 4) (x y n : Fin 16) (nn : Byte) (nnn : Addr12)

theorem wordA_eq_wordNNN : wordA p nnn = Claims.wordNNN p.toNat nnn.toNat := by
  rw [Claims.wordNNN, ← wordA_toNat, BitVec.ofNat_toNat, BitVec.setWidth_eq]

theorem wordXI_eq_wordXNN : wordXI p x nn = Claims.wordXNN p.toNat x.val nn.toNat := by
  rw [Claims.wordXNN, ← wordXI_toNat, BitVec.ofNat_toNat, BitVec.setWidth_eq]

theorem nibbles_eq_word4 : nibbles p x y n = Claims.word4 p.toNat x.val y.val n.val := by
  rw [Claims.word4, ← nibbles_toNat, BitVec.ofNat_toNat, BitVec.setWidth_eq]

end ClaimWords

theorem decode_of_encode_eq {i : Instr} {op : Word} (h : encode i = op) : decode op = .ok i :=
  h ▸ decode_encode i

end Sys2Proof

namespace Sys2Proof.Machine

section ControlFlow
variable {s : State}

/-! ## The step cycle (R81, R82) -/

/-- The word fetched in the arithmetic of R43: the byte at `PC` is the high one. -/
theorem State.fetchWord_eq_ofNat (s : State) :
    s.fetchWord = BitVec.ofNat 16 (256 * (s.mem.read s.pc).toNat + (s.mem.read (s.pc + 1)).toNat) := by
  rw [← wordOfBytes_toNat, BitVec.ofNat_toNat, BitVec.setWidth_eq, State.fetchWord]

theorem step_of_halted (h : s.halted = true) :
    step s = .fault (.halted s.faultCause s.faultOpcode s.faultPc) := by
  simp [step, h]

theorem stepWith_of_halted (rnd : Byte) (h : s.halted = true) :
    stepWith rnd s = .fault (.halted s.faultCause s.faultOpcode s.faultPc) := by
  simp [stepWith, step_of_halted (s := { s with rndSupply := [rnd] }) h]

/-! ## Return and call (R84, R86) -/

theorem exec_ret_of_stack_append {ws : List Word} {w : Word} (h : s.stack = ws ++ [w]) :
    exec .ret s = .next { s with pc := w, stack := ws } := by
  simp [exec, execRet, State.pop?, State.setPc, h]

theorem exec_ret_of_stack_nil (h : s.stack = []) : exec .ret s = .next s := by
  simp [exec, execRet, State.pop?, h]

theorem exec_call_of_lt (nnn : Addr12) (h : s.stack.length < 16) :
    exec (.call nnn) s = .next ((s.push s.pc).setPc (zextAddr nnn)) :=
  if_pos h

theorem exec_call_of_ge (nnn : Addr12) (h : 16 ≤ s.stack.length) :
    exec (.call nnn) s = .next (s.raiseFault .stackOverflow (encode (.call nnn)) s.pc0) :=
  if_neg (Nat.not_lt.2 h)

/-! ## Skips (R83) -/

theorem State.skipIf_eq_setPc (s : State) (c : Bool) : s.skipIf c = { s with pc := (s.skipIf c).pc } := by
  cases c <;> rfl

theorem State.advancePc_pc_toNat (s : State) : s.advancePc.pc.toNat = (s.pc.toNat + 2) % 65536 :=
  BitVec.toNat_add s.pc Config.insnBytes

/-- What a skip instruction does, said once: it skips where `P` holds, falls through where `Q` does, and
writes nothing but `PC`. -/
theorem exec_skip {i : Instr} {c : Bool} {P Q : Prop} (h : exec i s = .next (s.skipIf c))
    (hskip : P → c = true) (hstay : Q → c = false) :
    ∃ t, exec i s = .next t ∧ t = { s with pc := t.pc } ∧
      (P → t.pc.toNat = (s.pc.toNat + 2) % 65536) ∧ (Q → t.pc = s.pc) := by
  refine ⟨_, h, s.skipIf_eq_setPc c, fun hp => ?_, fun hq => ?_⟩
  · rw [hskip hp]
    exact s.advancePc_pc_toNat
  · rw [hstay hq]
    rfl

/-! ## The indexed jump (R91) -/

/-- The greatest target of Bnnn is 0xFFF + 0xFF, so the sum does not wrap (R91). -/
theorem jpV0_target_toNat (nnn : Addr12) (b : Byte) :
    (zextAddr nnn + zextByte b).toNat = nnn.toNat + b.toNat := by
  have := nnn.isLt
  have := b.isLt
  rw [BitVec.toNat_add, zextAddr_toNat, zextByte_toNat]
  omega

end ControlFlow

/-! ## The statements -/

/-- Settles O14: the subroutine leaves the call's own entry newest, and the return takes that one. -/
theorem retResumesAfterCall : Obligations.RetResumesAfterCall := by
  intro nnn s t u hlt hcall hu
  rw [exec_call_of_lt nnn hlt] at hcall
  obtain rfl := Host.Outcome.next.inj hcall
  exact ⟨_, exec_ret_of_stack_append hu, rfl, rfl, rfl⟩

/-- Settles O6: the word of the statement is the word fetched, and each clause is a case of the step. -/
theorem stepRunsDecodedInstruction : Obligations.StepRunsDecodedInstruction := by
  intro s op hop
  rw [← State.fetchWord_eq_ofNat] at hop
  subst hop
  exact ⟨fun hrun _ _ hd => step_of_decode_ok hd hrun, fun hrun _ hd => step_of_decode_error hd hrun,
    step_of_halted⟩

/-- Settles O7: the latch and the report do not depend on the byte supplied. -/
theorem haltedStepReturnsRecordedFault : Obligations.HaltedStepReturnsRecordedFault := by
  intro s rnd h
  rw [perform, performStep, stepWith_of_halted rnd h]

/-- Settles O11, by the two cases of the stack. -/
theorem retPopsOrFallsThrough : Obligations.RetPopsOrFallsThrough :=
  ⟨decode_encode .ret, fun _ _ _ => exec_ret_of_stack_append, fun _ => exec_ret_of_stack_nil⟩

/-- Settles O12: a zero-extended address keeps its value. -/
theorem jumpSetsPc : Obligations.JumpSetsPc := fun nnn _ =>
  ⟨decode_of_encode_eq (wordA_eq_wordNNN 0x1 nnn), _, rfl, zextAddr_toNat nnn, rfl⟩

/-- Settles O13: the two clauses are the two branches of the call, and the report's word is the call's own
encoding. -/
theorem callPushesOrOverflows : Obligations.CallPushesOrOverflows := by
  intro nnn s
  have hword : encode (.call nnn) = Claims.wordNNN 0x2 nnn.toNat := wordA_eq_wordNNN 0x2 nnn
  refine ⟨decode_of_encode_eq hword, fun hlt => ?_, fun hfull pc0 hpc => ?_⟩
  · exact ⟨_, exec_call_of_lt nnn hlt, zextAddr_toNat nnn, rfl⟩
  · rw [exec_call_of_ge nnn hfull.ge, hword, State.pc0_of hpc]
    rfl

/-- Settles O15, with the condition of `exec_skip` read as an equality of numbers. -/
theorem skipsOnImmediate : Obligations.SkipsOnImmediate := by
  intro x nn s
  refine ⟨decode_of_encode_eq (wordXI_eq_wordXNN 0x3 x nn),
    decode_of_encode_eq (wordXI_eq_wordXNN 0x4 x nn), exec_skip rfl ?_ ?_, exec_skip rfl ?_ ?_⟩
  all_goals simp [← BitVec.toNat_inj]

/-- Settles O16; `x` = `y` is one more way for the two bytes to be equal. -/
theorem skipsOnRegister : Obligations.SkipsOnRegister := by
  intro x y s
  have hsame : (s.getV x).toNat = (s.getV y).toNat ∨ x = y → s.getV x = s.getV y
    | .inl h => BitVec.eq_of_toNat_eq h
    | .inr h => congrArg s.getV h
  have hdiff (h : (s.getV x).toNat ≠ (s.getV y).toNat) : s.getV x ≠ s.getV y :=
    fun he => h (congrArg BitVec.toNat he)
  refine ⟨decode_of_encode_eq (nibbles_eq_word4 0x5 x y 0),
    decode_of_encode_eq (nibbles_eq_word4 0x9 x y 0), exec_skip rfl ?_ ?_, exec_skip rfl ?_ ?_⟩
  · exact fun h => beq_iff_eq.2 (hsame h)
  · exact fun h => beq_eq_false_iff_ne.2 (hdiff h)
  · exact fun h => bne_iff_ne.2 (hdiff h)
  · exact fun h => bne_eq_false_iff_eq.2 (hsame h)

/-- Settles O17: the fault from a target past memory is the fetch past memory of O8. -/
theorem indexedJumpAddsV0 : Obligations.IndexedJumpAddsV0 := by
  intro nnn s
  have htarget := jpV0_target_toNat nnn (s.getV 0)
  refine ⟨decode_of_encode_eq (wordA_eq_wordNNN 0xB nnn), _, rfl, htarget, rfl, fun hrun hge => ?_⟩
  have hle : nnn.toNat + (s.getV 0).toNat ≤ 0xFFFE := by omega
  exact fetchPastMemoryRaisesInvalidOpcode _ hrun (htarget ▸ hge) (htarget ▸ hle)

end Sys2Proof.Machine
end

section
/-! Proofs of the register and arithmetic statements (`41_register_alu.md`): what the random byte of `STEP`
reaches (R109), and what a write to one register and a result followed by a flag do (R95 to R106). -/

namespace Sys2Proof.Machine

/-! ## The key wait (R127) -/

theorem exec_ldVxK_of_firstDown_some {s : State} {x k : Reg} (h : s.firstDown = some k) :
    exec (.ldVxK x) s = .next (s.setV x (BitVec.ofNat 8 k.val)) := by
  simp [exec, execLdVxK, h]

theorem exec_ldVxK_of_firstDown_none {s : State} {x : Reg} (h : s.firstDown = none) :
    exec (.ldVxK x) s = .next (s.setPc s.pc0) := by
  simp [exec, execLdVxK, h]

/-! ## The random byte (R109, R153) -/

section RandomByte
variable {s t : State} (supply : List Byte)

theorem State.skipIf_setSupply (s : State) (c : Bool) :
    { s with rndSupply := supply : State }.skipIf c = { s.skipIf c with rndSupply := supply } := by
  cases c <;> rfl

theorem loadRegs_setSupply (s : State) (ks : List Reg) :
    loadRegs { s with rndSupply := supply } ks = { loadRegs s ks with rndSupply := supply } := by
  induction ks using List.reverseRecOn with
  | nil => rfl
  | append_singleton ks k ih =>
    simp only [loadRegs, List.foldl_append, List.foldl_cons, List.foldl_nil] at ih ⊢
    rw [ih]
    rfl

/-- No instruction but Cxnn reads or writes the bytes the host has supplied. -/
theorem exec_setSupply {i : Instr} (hi : ∀ x nn, i ≠ .rnd x nn) (h : exec i s = .next t) :
    exec i { s with rndSupply := supply } = .next { t with rndSupply := supply } := by
  cases i with
  | rnd x nn => exact absurd rfl (hi x nn)
  | ret =>
    rcases exec_ret_cases h with ⟨hs, rfl⟩ | ⟨ws, w, hs, rfl⟩
    · exact exec_ret_of_stack_nil hs
    · exact exec_ret_of_stack_append hs
  | call nnn =>
    rcases exec_call_cases h with ⟨hlt, rfl⟩ | ⟨hge, rfl⟩
    · exact exec_call_of_lt nnn hlt
    · exact exec_call_of_ge nnn hge
  | ldVxK x =>
    rcases exec_ldVxK_cases h with ⟨k, hk, rfl⟩ | ⟨hk, rfl⟩
    · exact exec_ldVxK_of_firstDown_some hk
    · exact exec_ldVxK_of_firstDown_none hk
  | seVxNn _ _ | sneVxNn _ _ | seVxVy _ _ | sneVxVy _ _ | skp _ | sknp _ =>
    obtain rfl := Host.Outcome.next.inj h
    exact congrArg _ (s.skipIf_setSupply supply _)
  | ldVxMem x =>
    obtain rfl := Host.Outcome.next.inj h
    simp only [exec, execLdVxMem, loadRegs_setSupply]
    rfl
  | _ =>
    obtain rfl := Host.Outcome.next.inj h
    rfl

theorem stepWith_of_step_next {rnd : Byte} (h : step { s with rndSupply := [rnd] } = .next t) :
    stepWith rnd s = .next { t with rndSupply := s.rndSupply } := by
  simp [stepWith, h]

theorem stepWith_of_decode_ok {rnd : Byte} {i : Instr} (hd : decode s.fetchWord = .ok i)
    (hrun : s.halted = false) (h : exec i { s.advancePc with rndSupply := [rnd] } = .next t) :
    stepWith rnd s = .next { t with rndSupply := s.rndSupply } :=
  stepWith_of_step_next ((step_of_decode_ok (s := { s with rndSupply := [rnd] }) hd hrun).trans h)

/-- A byte that is not drawn is ignored: `STEP(rnd)` is the step of the machine as it stands (R109). -/
theorem stepWith_of_not_rnd (rnd : Byte) (h : ∀ x nn, decode s.fetchWord ≠ .ok (.rnd x nn)) :
    stepWith rnd s = step s := by
  rcases step_cases s with ⟨hh, hst⟩ | ⟨hrun, i, hd, hst⟩ | ⟨hrun, e, hd, hst⟩
  · rw [stepWith_of_halted rnd hh, hst]
  · have hi (x : Reg) (nn : Byte) : i ≠ .rnd x nn := fun he => h x nn (he ▸ hd)
    obtain ⟨t, ht⟩ := exec_next i s.advancePc
    have hkeep := exec_setSupply s.rndSupply hi ht
    rw [stepWith_of_decode_ok hd hrun (exec_setSupply [rnd] hi ht), hst]
    exact hkeep.symm
  · rw [stepWith_of_step_next (step_of_decode_error hd hrun), hst]
    rfl

/-- Cxnn writes `V[x]`, and beside it only the model's own two fields. -/
theorem exec_rnd_eq (x : Reg) (nn : Byte) (s : State) : ∃ supply draws, exec (.rnd x nn) s =
    .next ({ s with rndSupply := supply, rndDraws := draws : State }.setV x (s.rndNext &&& nn)) := by
  simp only [exec, execRnd, State.rndUsed]
  split <;> exact ⟨_, _, rfl⟩

end RandomByte

/-! ## A write to one register (R96 to R98) -/

section Results
variable {s : State} {i : Instr} {x : Reg} {a b result flag : Byte}

/-- What an instruction that writes `V[x]` alone does, said once. -/
theorem exec_setV (h : exec i s = .next (s.setV x result)) :
    ∃ t, exec i s = .next t ∧ t.getV x = result ∧
      (∀ r, r ≠ x → t.getV r = s.getV r) ∧ t = { s with v := t.v } :=
  ⟨_, h, by simp, fun r hr => by simp [hr], rfl⟩

theorem State.setV_getV_self (s : State) (x : Reg) : s.setV x (s.getV x) = s := by
  simp [State.setV, State.getV]

/-! ## A result, then a flag (R94, R95, R99 to R106) -/

/-- What an instruction that writes its result to `V[x]` and its flag to VF does, said once: the flag write
is last, so it stays whatever `x` is (R95). -/
theorem exec_setResultThenFlag (h : exec i s = .next (s.setResultThenFlag x result flag)) :
    ∃ t, exec i s = .next t ∧ (x ≠ 15 → t.getV x = result) ∧ t.getV 15 = flag ∧
      (∀ r, r ≠ x → r ≠ 15 → t.getV r = s.getV r) ∧ t = { s with v := t.v } :=
  ⟨_, h, fun hx => by simp [VF, hx], by simp [VF], fun r hr hf => by simp [VF, hr, hf], rfl⟩

/-- The logic instructions: a result known bit by bit, and the flag 0 (R99 to R101). -/
theorem logicResult_of_exec {y : Reg} {f : Bool → Bool → Bool}
    (h : exec i s = .next (s.setResultThenFlag x result 0))
    (hbits : ∀ j < 8, result.getLsbD j = f ((s.getV x).getLsbD j) ((s.getV y).getLsbD j)) :
    Claims.LogicResult i x y f s := by
  obtain ⟨t, ht, hresult, hflag, hother, hframe⟩ := exec_setResultThenFlag h
  exact ⟨t, ht, hflag, fun hx j hj => by rw [hresult hx, hbits j hj], hother, hframe⟩

theorem flagByte_toNat (c : Bool) : (flagByte c).toNat = c.toNat := by cases c <;> rfl

theorem carryFlag_toNat : (carryFlag a b).toNat = if a.toNat + b.toNat > 255 then 1 else 0 := by
  rw [carryFlag, flagByte_toNat, Bool.toNat, Bool.cond_decide]

theorem noBorrowFlag_toNat : (noBorrowFlag a b).toNat = if a.toNat ≥ b.toNat then 1 else 0 := by
  rw [noBorrowFlag, flagByte_toNat, Bool.toNat, Bool.cond_decide]

theorem lowBitFlag_toNat : (lowBitFlag a).toNat = a.toNat % 2 := by
  rw [lowBitFlag, flagByte_toNat, BitVec.getLsbD, Nat.toNat_testBit, Nat.pow_zero, Nat.div_one]

theorem highBitFlag_toNat : (highBitFlag a).toNat = a.toNat / 128 := by
  have := a.isLt
  rw [highBitFlag, flagByte_toNat, BitVec.getLsbD, Nat.toNat_testBit]
  omega

/-- Subtraction of bytes is subtraction of integers modulo 256. -/
theorem sub_toNat_eq_emod : ((a - b).toNat : Int) = ((a.toNat : Int) - b.toNat) % 256 := by
  have := a.isLt
  have := b.isLt
  rw [BitVec.toNat_sub]
  omega

/-- 8xy5 and 8xy7 are one operation with its operands exchanged (R103, R105). -/
theorem exec_difference (h : exec i s = .next (s.setResultThenFlag x (a - b) (noBorrowFlag a b))) :
    ∃ t, exec i s = .next t ∧
      (x ≠ 15 → ((t.getV x).toNat : Int) = ((a.toNat : Int) - b.toNat) % 256) ∧
      (a.toNat ≥ b.toNat → (t.getV 15).toNat = 1) ∧ (a.toNat < b.toNat → (t.getV 15).toNat = 0) ∧
      (∀ r, r ≠ x → r ≠ 15 → t.getV r = s.getV r) ∧ t = { s with v := t.v } := by
  obtain ⟨t, ht, hresult, hflag, hrest⟩ := exec_setResultThenFlag h
  refine ⟨t, ht, fun hx => ?_, fun hge => ?_, fun hlt => ?_, hrest⟩
  · rw [hresult hx, sub_toNat_eq_emod]
  · rw [hflag, noBorrowFlag_toNat, if_pos hge]
  · rw [hflag, noBorrowFlag_toNat, if_neg (Nat.not_le.2 hlt)]

end Results

/-! ## The statements -/

/-- Settles O10: with either byte the step is the one of the machine as it stands. -/
theorem randomByteMattersOnlyToRnd : Obligations.RandomByteMattersOnlyToRnd := fun _ r r' h =>
  (stepWith_of_not_rnd r h).trans (stepWith_of_not_rnd r' h).symm

/-- Settles O18, a write to one register. -/
theorem loadImmediateSetsRegister : Obligations.LoadImmediateSetsRegister := fun x nn _ =>
  ⟨decode_of_encode_eq (wordXI_eq_wordXNN 0x6 x nn), exec_setV rfl⟩

/-- Settles O19: the sum of two bytes wraps at 256. -/
theorem addImmediateWrapsWithoutFlag : Obligations.AddImmediateWrapsWithoutFlag := by
  intro x nn s
  obtain ⟨t, ht, hresult, hrest⟩ := exec_setV (show exec (.addVxNn x nn) s = _ from rfl)
  exact ⟨decode_of_encode_eq (wordXI_eq_wordXNN 0x7 x nn), t, ht, by rw [hresult, BitVec.toNat_add], hrest⟩

/-- Settles O20; a register copied to itself is the state as it was. -/
theorem copyRegister : Obligations.CopyRegister := by
  intro x y s
  obtain ⟨t, ht, hresult, hother, hframe⟩ := exec_setV (show exec (.ldVxVy x y) s = _ from rfl)
  refine ⟨decode_of_encode_eq (nibbles_eq_word4 0x8 x y 0x0), t, ht, hresult, hother, hframe, ?_⟩
  rintro rfl
  exact (Host.Outcome.next.inj ht).symm.trans (s.setV_getV_self x)

/-- Settles O21, bit by bit. -/
theorem logicInstructionsClearVF : Obligations.LogicInstructionsClearVF := fun x y _ =>
  ⟨decode_of_encode_eq (nibbles_eq_word4 0x8 x y 0x1), decode_of_encode_eq (nibbles_eq_word4 0x8 x y 0x2),
    decode_of_encode_eq (nibbles_eq_word4 0x8 x y 0x3),
    logicResult_of_exec rfl fun _ _ => BitVec.getLsbD_or, logicResult_of_exec rfl fun _ _ => BitVec.getLsbD_and,
    logicResult_of_exec rfl fun _ _ => BitVec.getLsbD_xor⟩

/-- Settles O22: the sum wraps at 256, and the carry is the sum past 255. -/
theorem addSetsCarry : Obligations.AddSetsCarry := by
  intro x y s
  obtain ⟨t, ht, hresult, hflag, hrest⟩ :=
    exec_setResultThenFlag (show exec (.addVxVy x y) s = _ from rfl)
  refine ⟨decode_of_encode_eq (nibbles_eq_word4 0x8 x y 0x4), t, ht, fun hx => ?_, fun hgt => ?_,
    fun hle => ?_, hrest⟩
  · rw [hresult hx, BitVec.toNat_add]
  · rw [hflag, carryFlag_toNat, if_pos hgt]
  · rw [hflag, carryFlag_toNat, if_neg (Nat.not_lt.2 hle)]

/-- Settles O23, the difference with `V[x]` first. -/
theorem subSetsNoBorrow : Obligations.SubSetsNoBorrow := fun x y _ =>
  ⟨decode_of_encode_eq (nibbles_eq_word4 0x8 x y 0x5), exec_difference rfl⟩

/-- Settles O24; the meaning does not name `y`, so one outcome serves every `y`. -/
theorem shiftRightTakesLowBit : Obligations.ShiftRightTakesLowBit := by
  intro x y s
  obtain ⟨t, ht, hresult, hflag, hother, hframe⟩ :=
    exec_setResultThenFlag (show exec (.shr x y) s = _ from rfl)
  refine ⟨decode_of_encode_eq (nibbles_eq_word4 0x8 x y 0x6), t, ht, fun hx => ?_, ?_, hother, hframe,
    fun _ => ht⟩
  · rw [hresult hx, BitVec.toNat_ushiftRight, Nat.shiftRight_one]
  · rw [hflag, lowBitFlag_toNat]

/-- Settles O25, the difference with `V[y]` first. -/
theorem subnSetsNoBorrow : Obligations.SubnSetsNoBorrow := fun x y _ =>
  ⟨decode_of_encode_eq (nibbles_eq_word4 0x8 x y 0x7), exec_difference rfl⟩

/-- Settles O26; as for 8xy6, one outcome serves every `y`. -/
theorem shiftLeftTakesHighBit : Obligations.ShiftLeftTakesHighBit := by
  intro x y s
  obtain ⟨t, ht, hresult, hflag, hother, hframe⟩ :=
    exec_setResultThenFlag (show exec (.shl x y) s = _ from rfl)
  refine ⟨decode_of_encode_eq (nibbles_eq_word4 0x8 x y 0xE), t, ht, fun hx => ?_, ?_, hother, hframe,
    fun _ => ht⟩
  · rw [hresult hx, BitVec.toNat_shiftLeft, Nat.shiftLeft_eq, Nat.pow_one]
  · rw [hflag, highBitFlag_toNat]

/-- Settles O27: the next byte is any byte, and the draw touches the model's own two fields alone. -/
theorem rndMasksRandomByte : Obligations.RndMasksRandomByte := by
  intro x nn s
  obtain ⟨supply, draws, h⟩ := exec_rnd_eq x nn s
  refine ⟨decode_of_encode_eq (wordXI_eq_wordXNN 0xC x nn), _, h, fun j _ => ?_, fun r hr => ?_, rfl⟩
  · simp
  · rw [State.getV_setV, if_neg hr]
    rfl

/-- Settles O28: the one supplied byte is the byte drawn, and the host's own supply is put back. -/
theorem stepUsesTheSuppliedByte : Obligations.StepUsesTheSuppliedByte := by
  intro x nn rnd s hrun hword
  have hd : decode s.fetchWord = .ok (.rnd x nn) :=
    hword ▸ decode_of_encode_eq (wordXI_eq_wordXNN 0xC x nn)
  have hst : stepWith rnd s = .next { s with v := s.v.set x (rnd &&& nn), pc := s.pc + 2 } :=
    stepWith_of_decode_ok hd hrun rfl
  simp [perform, performStep, hst, hrun]

end Sys2Proof.Machine
end

section
/-! Proofs of the index and memory statements (`42_index_and_memory.md`): the arithmetic of addresses and
digits (R110 to R117), and what the block store, the block load and Fx33 leave in memory and registers. -/

namespace Sys2Proof.Machine

/-! ## Addresses and digits as numbers (R42, R111 to R117) -/

section IndexArithmetic
variable (i : Word) (b : Byte)

theorem effAddr_toNat (k : Nat) : (effAddr i k).toNat = (i.toNat + k) % 65536 := by
  simp [effAddr]

/-- The post-increment of Fx55 and Fx65 is the address just past the block (R116). -/
theorem afterBlock_toNat (x : Reg) : (afterBlock i x).toNat = (i.toNat + x.val + 1) % 65536 :=
  effAddr_toNat i (x.val + 1)

theorem add_zextByte_toNat : (i + zextByte b).toNat = (i.toNat + b.toNat) % 65536 := by
  rw [BitVec.toNat_add, zextByte_toNat]

/-- The greatest glyph address is 255 * 5, so the product does not wrap (R112). -/
theorem glyphAddr_toNat : (glyphAddr b).toNat = b.toNat * 5 := by
  have := b.isLt
  rw [glyphAddr, BitVec.toNat_mul, zextByte_toNat, Config.glyphStride, BitVec.toNat_ofNat]
  omega

theorem hundreds_toNat : (hundreds b).toNat = b.toNat / 100 := by
  have := b.isLt
  rw [hundreds, BitVec.toNat_ofNat]
  omega

theorem tens_toNat : (tens b).toNat = b.toNat / 10 % 10 := by
  rw [tens, BitVec.toNat_ofNat]
  omega

theorem ones_toNat : (ones b).toNat = b.toNat % 10 := by
  rw [ones, BitVec.toNat_ofNat]
  omega

end IndexArithmetic

/-! ## A write to `I` (R110 to R112) -/

/-- What an instruction that writes `I` alone does, said once. -/
theorem exec_setI {i : Instr} {s : State} {w : Word} {n : Nat} (h : exec i s = .next (s.setI w))
    (hw : w.toNat = n) : ∃ t, exec i s = .next t ∧ t.i.toNat = n ∧ t = { s with i := t.i } :=
  ⟨_, h, hw, rfl⟩

/-! ## Decimal digits in memory (R113) -/

section Digits
variable {m : Memory} {i : Word} {b : Byte}

/-- Each digit that has a cell stands at its own address: the three addresses are distinct. -/
theorem read_storeDigits_toNat :
    ∀ p ∈ [(0, b.toNat / 100), (1, b.toNat / 10 % 10), (2, b.toNat % 10)],
      (effAddr i p.1).toNat < 4096 → ((storeDigits m i b).read (effAddr i p.1)).toNat = p.2 := by
  intro p hp h
  simp only [List.mem_cons, List.not_mem_nil, or_false] at hp
  obtain rfl | rfl | rfl := hp
  · simp [read_storeDigits, effAddr_inj, h, hundreds_toNat]
  · simp [read_storeDigits, effAddr_inj, h, tens_toNat]
  · simp [read_storeDigits, h, ones_toNat]

/-- Fx33 leaves every byte outside its three addresses as it was. -/
theorem read_storeDigits_of_ne {a : Word} (ha : ∀ k ≤ 2, a ≠ effAddr i k) :
    (storeDigits m i b).read a = m.read a := by
  simp [read_storeDigits, ha]

end Digits

/-! ## Blocks of registers (R114, R115) -/

section Blocks
variable {s : State} {x k : Reg}

theorem read_storeRegs_of_lt (hk : k ≤ x) (h : (effAddr s.i k.val).toNat < 4096) :
    (storeRegs s (regsUpTo x)).read (effAddr s.i k.val) = s.getV k :=
  (read_storeRegs s (mem_regsUpTo.2 hk)).trans (if_pos h)

theorem getV_loadRegs_of_le (hk : k ≤ x) :
    (loadRegs s (regsUpTo x)).getV k = s.mem.read (effAddr s.i k.val) :=
  (getV_loadRegs s (regsUpTo x) k).trans (if_pos (mem_regsUpTo.2 hk))

theorem getV_loadRegs_of_gt (hk : x < k) : (loadRegs s (regsUpTo x)).getV k = s.getV k :=
  (getV_loadRegs s (regsUpTo x) k).trans (if_neg fun h => absurd (mem_regsUpTo.1 h) (not_le.2 hk))

/-- A block load writes `V` and `I` and nothing else. -/
theorem loadRegs_setI_eq (s : State) (ks : List Reg) (w : Word) :
    (loadRegs s ks).setI w = { s with v := (loadRegs s ks).v, i := w } :=
  congrArg (State.setI · w) (loadRegs_eq s ks)

/-- A block that ends below 4096 has a cell for each of its registers: none of its addresses wraps. -/
theorem effAddr_toNat_lt_of_block {i : Word} (h : i.toNat + x.val < 4096) (hk : k ≤ x) :
    (effAddr i k.val).toNat < 4096 := by
  have : k.val ≤ x.val := hk
  rw [effAddr_toNat]
  omega

end Blocks

/-! ## The statements -/

/-- Settles O32: a digit is read back where a cell is, and no address without one reads as anything but 0. -/
theorem decimalDigitsAreStored : Obligations.DecimalDigitsAreStored := fun x s =>
  ⟨decode_of_encode_eq (wordXI_eq_wordXNN 0xF x 0x33), _, rfl, fun k _ => effAddr_toNat s.i k,
    fun p hp => ⟨read_storeDigits_toNat p hp, Memory.read_of_ge⟩,
    fun _ => read_storeDigits_of_ne, rfl⟩

/-- Settles O33, with the memory after the stores read inside and outside the block. -/
theorem blockStoreWritesRegisters : Obligations.BlockStoreWritesRegisters := fun x s =>
  ⟨decode_of_encode_eq (wordXI_eq_wordXNN 0xF x 0x55), _, rfl, fun k _ => effAddr_toNat s.i k,
    fun _ hk => ⟨read_storeRegs_of_lt hk, Memory.read_of_ge⟩,
    fun _ ha => read_storeRegs_of_ne s fun k hk => ha k (mem_regsUpTo.1 hk),
    afterBlock_toNat s.i x, rfl⟩

/-- Settles O34: a loaded register is the byte read, which is 0 where no cell is. -/
theorem blockLoadReadsMemory : Obligations.BlockLoadReadsMemory := fun x s =>
  ⟨decode_of_encode_eq (wordXI_eq_wordXNN 0xF x 0x65), _, rfl, fun k _ => effAddr_toNat s.i k,
    fun _ hk => ⟨getV_loadRegs_of_le hk, fun h => (getV_loadRegs_of_le hk).trans (Memory.read_of_ge h)⟩,
    fun _ => getV_loadRegs_of_gt, afterBlock_toNat s.i x, loadRegs_setI_eq s _ _⟩

/-- Settles O35: the load reads the addresses of the store, and each of them has a cell. -/
theorem storeThenLoadRestores : Obligations.StoreThenLoadRestores := by
  intro x s t v ht hblock
  obtain rfl := Host.Outcome.next.inj ht
  refine ⟨_, rfl, fun k hk => ?_⟩
  exact (getV_loadRegs_of_le hk).trans (read_storeRegs_of_lt hk (effAddr_toNat_lt_of_block hblock hk))

/-- Settles O29: a zero-extended address keeps its value. -/
theorem loadIndexImmediate : Obligations.LoadIndexImmediate := fun nnn _ =>
  ⟨decode_of_encode_eq (wordA_eq_wordNNN 0xA nnn), exec_setI rfl (zextAddr_toNat nnn)⟩

/-- Settles O30: `I` is 16 bits wide, so its sum with a byte wraps at 65536. -/
theorem addToIndexWrapsSilently : Obligations.AddToIndexWrapsSilently := fun x s =>
  ⟨decode_of_encode_eq (wordXI_eq_wordXNN 0xF x 0x1E), exec_setI rfl (add_zextByte_toNat s.i (s.getV x))⟩

/-- Settles O31: the product of a whole byte and the glyph stride fits in `I`. -/
theorem glyphAddressIsFiveTimes : Obligations.GlyphAddressIsFiveTimes := fun x s =>
  ⟨decode_of_encode_eq (wordXI_eq_wordXNN 0xF x 0x29), exec_setI rfl (glyphAddr_toNat (s.getV x))⟩

end Sys2Proof.Machine
end

section
/-! Proofs of the display statements (`43_display.md`): what a whole sprite does to each pixel and to the
collision flag (R121 to R123), and the cleared screen and the reads of the host (R118, R120, R141, R152). -/

namespace Sys2Proof.Machine

open Claims

/-! ## Pixels by their numbers (R118) -/

section Pixels
variable {f g : Frame}

theorem Frame.getPixel_fin (f : Frame) (x : Fin 64) (y : Fin 32) : f.getPixel x.val y.val = f[y][x] := by
  have hx : (x.val : Int) < 64 := by omega
  have hy : (y.val : Int) < 32 := by omega
  simp [Frame.getPixel, hx, hy]

/-- A pixel that is set is on the screen. -/
theorem Frame.lt_of_getPixel {px py : Nat} (h : f.getPixel px py = true) : px < 64 ∧ py < 32 := by
  have hp : OnScreen px py := by
    by_contra hp
    exact Bool.false_ne_true ((Frame.getPixel_of_not hp).symm.trans h)
  omega

/-- A framebuffer is known by its 2048 pixels. -/
theorem Frame.ext_onScreen
    (h : ∀ px py : Nat, px < 64 → py < 32 → f.getPixel px py = g.getPixel px py) : f = g := by
  refine Frame.ext_getPixel fun x y => ?_
  by_cases hp : OnScreen x y
  · obtain ⟨⟨hx, hx64⟩, hy, hy32⟩ := hp
    lift x to Nat using hx
    lift y to Nat using hy
    exact h x y (by omega) (by omega)
  · rw [Frame.getPixel_of_not hp, Frame.getPixel_of_not hp]

end Pixels

/-! ## The sprite's bits, row by row (R121, R123) -/

section Sprite
variable (s : State) (xp yp n px py : Nat)

/-- The bit that row `n` of the sprite lays over pixel `(px, py)`. -/
def spriteRowBit : Bool :=
  decide (py = yp + n ∧ xp ≤ px ∧ px < xp + 8 ∧ (s.mem.read (effAddr s.i n)).getLsbD (7 - (px - xp)) = true)

theorem spriteBit_zero : spriteBit s xp yp 0 px py = false := by
  have : ¬ (yp ≤ py ∧ py < yp) := by omega
  simp [spriteBit, this]

/-- The rows above reach no pixel of row `n`. -/
theorem spriteBit_of_row_le (h : yp + n ≤ py) : spriteBit s xp yp n px py = false := by
  simp [spriteBit, h]

theorem spriteBit_succ :
    spriteBit s xp yp (n + 1) px py = (spriteBit s xp yp n px py || spriteRowBit s xp yp n px py) := by
  by_cases hrow : py = yp + n
  · subst hrow
    simp [spriteBit, spriteRowBit, Bool.and_assoc]
  · have hlt : py < yp + (n + 1) ↔ py < yp + n := by omega
    simp [spriteBit, spriteRowBit, hrow, hlt]

/-- Rows of a sprite do not overlap. -/
theorem spriteBit_of_spriteRowBit (h : spriteRowBit s xp yp n px py = true) :
    spriteBit s xp yp n px py = false := by
  obtain ⟨hrow, -⟩ := of_decide_eq_true h
  exact spriteBit_of_row_le s xp yp n px py hrow.ge

/-- A start position off the screen leaves every bit of the sprite off the screen: nothing wraps (R122). -/
theorem spriteBit_of_start_off (hstart : 64 ≤ xp ∨ 32 ≤ yp) (hpx : px < 64) (hpy : py < 32) :
    spriteBit s xp yp n px py = false := by
  have : ¬ (xp ≤ px ∧ px < xp + 8 ∧ yp ≤ py ∧ py < yp + n) := by omega
  simp [spriteBit, this]

/-! ## Drawing a sprite (R121) -/

variable {px py}

theorem Blit.row_getPixel (d : Blit) (hpx : px < 64) (hpy : py < 32) :
    (d.row (s.mem.read (effAddr s.i n)) xp (yp + n)).frame.getPixel px py =
      (d.frame.getPixel px py ^^ spriteRowBit s xp yp n px py) := by
  have hx : (px : Int) < 64 := by omega
  have hy : (py : Int) < 32 := by omega
  have hcol : ((px : Int) - xp).toNat = px - xp := by omega
  have hrow : (py : Int) = yp + n ↔ py = yp + n := by omega
  have hleft : (xp : Int) ≤ px ↔ xp ≤ px := by omega
  have hright : (px : Int) < xp + 8 ↔ px < xp + 8 := by omega
  rw [Blit.row_eq, Blit.rowTo_getPixel]
  simp [spriteRowBit, hx, hy, hcol, hrow, hleft, hright]

theorem Blit.row_hit (d : Blit) :
    (d.row (s.mem.read (effAddr s.i n)) xp (yp + n)).hit = true ↔
      d.hit = true ∨ ∃ px py : Nat, spriteRowBit s xp yp n px py = true ∧ d.frame.getPixel px py = true := by
  rw [Blit.row_eq, Blit.rowTo_hit]
  refine or_congr_right ⟨?_, ?_⟩
  · rintro ⟨c, hc, hbit, hset⟩
    exact ⟨xp + c, yp + n, by simp [spriteRowBit, hc, hbit], by simpa using hset⟩
  · rintro ⟨px, py, hbit, hset⟩
    obtain ⟨rfl, hle, hlt, hbit⟩ := of_decide_eq_true hbit
    obtain ⟨c, rfl⟩ := Nat.exists_eq_add_of_le hle
    exact ⟨c, by omega, by simpa using hbit, by simpa using hset⟩

/-- A sprite flips exactly the on-screen pixels under its 1 bits. -/
theorem drawSprite_getPixel (hpx : px < 64) (hpy : py < 32) :
    (drawSprite s.mem s.i xp yp n s.fb).frame.getPixel px py =
      (s.fb.getPixel px py ^^ spriteBit s xp yp n px py) := by
  induction n with
  | zero => simp [drawSprite_zero, spriteBit_zero]
  | succ n ih =>
    rw [drawSprite_succ, Blit.row_getPixel s xp yp n _ hpx hpy, ih, spriteBit_succ]
    cases hrow : spriteRowBit s xp yp n px py with
    | false => simp
    | true => simp [spriteBit_of_spriteRowBit s xp yp n px py hrow]

/-- The rows above leave a pixel under row `n` as it was. -/
theorem drawSprite_getPixel_of_spriteRowBit (h : spriteRowBit s xp yp n px py = true) :
    (drawSprite s.mem s.i xp yp n s.fb).frame.getPixel px py = s.fb.getPixel px py := by
  by_cases hp : OnScreen px py
  · rw [drawSprite_getPixel s xp yp n (by omega) (by omega), spriteBit_of_spriteRowBit s xp yp n px py h,
      Bool.xor_false]
  · rw [Frame.getPixel_of_not hp, Frame.getPixel_of_not hp]

/-- The bounds that `Collides` states follow from the pixel being set. -/
theorem collides_iff : Collides s xp yp n ↔
    ∃ px py : Nat, spriteBit s xp yp n px py = true ∧ s.fb.getPixel px py = true :=
  exists₂_congr fun _ _ => ⟨fun ⟨_, _, h⟩ => h, fun h =>
    ⟨(Frame.lt_of_getPixel h.2).1, (Frame.lt_of_getPixel h.2).2, h⟩⟩

/-- The collision flag of a whole sprite speaks of the framebuffer before the drawing. -/
theorem drawSprite_hit : (drawSprite s.mem s.i xp yp n s.fb).hit = true ↔ Collides s xp yp n := by
  rw [collides_iff]
  induction n with
  | zero => simp [drawSprite_zero, spriteBit_zero]
  | succ n ih =>
    have hkeep (px py : Nat) : spriteRowBit s xp yp n px py = true ∧
          (drawSprite s.mem s.i xp yp n s.fb).frame.getPixel px py = true ↔
        spriteRowBit s xp yp n px py = true ∧ s.fb.getPixel px py = true :=
      and_congr_right fun h => by rw [drawSprite_getPixel_of_spriteRowBit s xp yp n h]
    simp only [drawSprite_succ, Blit.row_hit, ih, hkeep, spriteBit_succ, Bool.or_eq_true, or_and_right,
      exists_or]

end Sprite

/-! ## Dxyn (R121) -/

theorem flagByte_eq_one_iff {c : Bool} : flagByte c = 1 ↔ c = true := by cases c <;> decide

theorem flagByte_eq_zero_iff {c : Bool} : flagByte c = 0 ↔ c = false := by cases c <;> decide

section Draw
variable {x y : Reg} {n : Fin 16} {s t : State} (h : exec (.drw x y n) s = .next t)
include h

/-- Dxyn writes VF and the framebuffer alone. -/
theorem exec_drw_frame : t = { s with v := t.v, fb := t.fb } := by
  obtain rfl := Host.Outcome.next.inj h
  rfl

theorem exec_drw_getV_of_ne {r : Reg} (hr : r ≠ 15) : t.getV r = s.getV r := by
  obtain rfl := Host.Outcome.next.inj h
  simp [VF, hr]

theorem exec_drw_getPixel {px py : Nat} (hpx : px < 64) (hpy : py < 32) : t.fb.getPixel px py =
    (s.fb.getPixel px py ^^ spriteBit s (s.getV x).toNat (s.getV y).toNat n.val px py) := by
  obtain rfl := Host.Outcome.next.inj h
  exact drawSprite_getPixel s _ _ _ hpx hpy

theorem exec_drw_getV_VF : t.getV 15 =
    flagByte (drawSprite s.mem s.i (s.getV x).toNat (s.getV y).toNat n.val s.fb).hit := by
  obtain rfl := Host.Outcome.next.inj h
  simp [VF, asInt]

theorem exec_drw_getV_VF_eq_one_iff :
    t.getV 15 = 1 ↔ Collides s (s.getV x).toNat (s.getV y).toNat n.val := by
  rw [exec_drw_getV_VF h, flagByte_eq_one_iff, drawSprite_hit]

theorem exec_drw_getV_VF_eq_zero_iff :
    t.getV 15 = 0 ↔ ¬ Collides s (s.getV x).toNat (s.getV y).toNat n.val := by
  rw [exec_drw_getV_VF h, flagByte_eq_zero_iff, ← drawSprite_hit, Bool.not_eq_true]

/-- A sprite cannot change its own bits: they are read from memory. -/
theorem spriteBit_of_exec_drw (xp yp k px py : Nat) : spriteBit t xp yp k px py = spriteBit s xp yp k px py := by
  rw [exec_drw_frame h]
  rfl

end Draw

/-! ## The statements -/

/-- Settles O37, by what a whole sprite does to a pixel and when it collides. -/
theorem drawXorsTheSprite : Obligations.DrawXorsTheSprite := by
  intro x y n s
  obtain ⟨t, ht⟩ := exec_next (.drw x y n) s
  exact ⟨decode_of_encode_eq (nibbles_eq_word4 0xD x y n), t, ht, fun _ _ => exec_drw_getPixel ht,
    fun hit => congrArg BitVec.toNat ((exec_drw_getV_VF_eq_one_iff ht).2 hit),
    fun miss => congrArg BitVec.toNat ((exec_drw_getV_VF_eq_zero_iff ht).2 miss),
    fun _ => exec_drw_getV_of_ne ht, exec_drw_frame ht⟩

/-- Settles O38: no bit of the sprite is on the screen, so no pixel is flipped and none collides. -/
theorem offScreenStartDrawsNothing : Obligations.OffScreenStartDrawsNothing := by
  intro x y n s hstart
  obtain ⟨t, ht⟩ := exec_next (.drw x y n) s
  have hoff {px py : Nat} (hpx : px < 64) (hpy : py < 32) :
      spriteBit s (s.getV x).toNat (s.getV y).toNat n.val px py = false :=
    spriteBit_of_start_off s _ _ _ px py hstart hpx hpy
  refine ⟨t, ht, Frame.ext_onScreen fun px py hpx hpy => ?_, (exec_drw_getV_VF_eq_zero_iff ht).2 ?_⟩
  · rw [exec_drw_getPixel ht hpx hpy, hoff hpx hpy, Bool.xor_false]
  · rintro ⟨px, py, hpx, hpy, hbit, -⟩
    exact Bool.false_ne_true ((hoff hpx hpy).symm.trans hbit)

/-- Settles O39: the second draw flips the same pixels back, and collides where the first one set a pixel. -/
theorem drawingTwiceRestores : Obligations.DrawingTwiceRestores := by
  intro x y n s t u hx hy ht hu
  have hpix {px py : Nat} (hpx : px < 64) (hpy : py < 32) := exec_drw_getPixel ht hpx hpy
  have hVF : u.getV 15 = 1 ↔ ∃ px py : Nat, px < 64 ∧ py < 32 ∧ s.fb.getPixel px py = false ∧
      spriteBit s (s.getV x).toNat (s.getV y).toNat n.val px py = true := by
    rw [exec_drw_getV_VF_eq_one_iff hu, exec_drw_getV_of_ne ht hx, exec_drw_getV_of_ne ht hy]
    refine exists₂_congr fun px py => and_congr_right fun hpx => and_congr_right fun hpy => ?_
    rw [spriteBit_of_exec_drw ht, hpix hpx hpy, and_comm]
    exact and_congr_left fun hbit => by simp [hbit]
  refine ⟨Frame.ext_onScreen fun px py hpx hpy => ?_, hVF.symm, ?_⟩
  · rw [exec_drw_getPixel hu hpx hpy, exec_drw_getV_of_ne ht hx, exec_drw_getV_of_ne ht hy,
      spriteBit_of_exec_drw ht, hpix hpx hpy, Bool.xor_assoc, Bool.xor_self, Bool.xor_false]
  · rintro ⟨px, py, hpx, hpy, hbit⟩ hmiss
    refine hVF.2 ⟨px, py, hpx, hpy, ?_, hbit⟩
    by_contra hset
    exact (exec_drw_getV_VF_eq_zero_iff ht).1 hmiss ⟨px, py, hpx, hpy, hbit, by simpa using hset⟩

/-- Settles O36: the framebuffer becomes the blank one, and nothing else is written. -/
theorem clearBlanksTheScreen : Obligations.ClearBlanksTheScreen :=
  ⟨decode_encode .cls, fun _ => ⟨_, rfl, fun x y =>
    (Frame.getPixel_fin Frame.blank x y).symm.trans (Frame.getPixel_blank _ _), rfl⟩⟩

/-- Settles O49: each read answers with the state it was given, and no pixel lies outside the screen. -/
theorem hostReadsChangeNothing : Obligations.HostReadsChangeNothing := fun s =>
  ⟨fun x y => by rw [perform, Frame.getPixel_fin],
    fun x y hoff => by rw [perform, Frame.getPixel_of_not (by omega)], rfl, rfl⟩

end Sys2Proof.Machine
end

section
/-! Proofs of the keypad and timer statements (`44_keypad_and_timers.md`): which key `FirstDown()` answers
(R126), the key wait (R127), the skips on a key (R125, R128, R129) and the timer moves (R130 to R132). -/

namespace Sys2Proof.Machine

section Keys
variable {s : State} {k : Reg}

/-! ## The lowest key down (R126) -/

/-- `FirstDown()` is the lowest key down, both ways: two such keys are one. -/
theorem State.firstDown_eq_some_iff :
    s.firstDown = some k ↔ s.keys[k] = true ∧ ∀ j : Reg, j < k → s.keys[j] = false := by
  refine ⟨State.firstDown_some, fun ⟨hk, hlow⟩ => ?_⟩
  cases hfirst : s.firstDown with
  | none => exact absurd (State.firstDown_none.1 hfirst k) (by simp [hk])
  | some j =>
    obtain ⟨hj, hlowj⟩ := State.firstDown_some hfirst
    rcases lt_trichotomy j k with hlt | rfl | hgt
    · exact absurd (hlow j hlt) (by simp [hj])
    · rfl
    · exact absurd (hlowj k hgt) (by simp [hk])

/-! ## The address of the instruction itself (R19) -/

theorem State.pc0_toNat (s : State) : (s.pc0.toNat : Int) = ((s.pc.toNat : Int) - 2) % 65536 := by
  have := s.pc.isLt
  rw [State.pc0, Config.insnBytes, BitVec.toNat_sub, BitVec.toNat_ofNat]
  omega

/-! ## Register values as key numbers (R125) -/

theorem State.isDown_asInt_of_eq {b : Byte} (h : b.toNat = k.val) : s.isDown (asInt b) = s.keys[k] := by
  rw [asInt, h, State.isDown_key]

/-- The whole byte is the number: one above 15 is not reduced to a key. -/
theorem State.isDown_asInt_of_ge {b : Byte} (h : 16 ≤ b.toNat) : s.isDown (asInt b) = false :=
  State.isDown_of_not (by rw [asInt]; omega)

end Keys

/-! ## The statements -/

/-- Settles O40, by the two answers of `FirstDown()`. -/
theorem keyWaitSpinsOrLoadsLowestKey : Obligations.KeyWaitSpinsOrLoadsLowestKey := by
  intro x s
  refine ⟨decode_of_encode_eq (wordXI_eq_wordXNN 0xF x 0x0A), fun hup => ?_, fun k hk hlow => ?_⟩
  · exact ⟨_, exec_ldVxK_of_firstDown_none (State.firstDown_none.2 hup), s.pc0_toNat, rfl⟩
  · obtain ⟨t, ht, hresult, hrest⟩ :=
      exec_setV (exec_ldVxK_of_firstDown_some (x := x) (State.firstDown_eq_some_iff.2 ⟨hk, hlow⟩))
    refine ⟨t, ht, ?_, hrest⟩
    rw [hresult, BitVec.toNat_ofNat]
    omega

/-- Settles O41: one flag decides both skips, and a number that is no key answers it as a key that is up. -/
theorem skipsOnKey : Obligations.SkipsOnKey := by
  intro x s
  obtain ⟨t, ht, htpc, tskip, tstay⟩ := exec_skip (show exec (.skp x) s = _ from rfl) id id
  obtain ⟨u, hu, hupc, uskip, ustay⟩ :=
    exec_skip (show exec (.sknp x) s = _ from rfl) (Bool.not_eq_true' _).mpr (Bool.not_eq_false' _).mpr
  have whenUp (h : s.isDown (asInt (s.getV x)) = false) := And.intro (tstay h) (uskip h)
  refine ⟨decode_of_encode_eq (wordXI_eq_wordXNN 0xE x 0x9E),
    decode_of_encode_eq (wordXI_eq_wordXNN 0xE x 0xA1), s.isDown_key,
    fun k hk => State.isDown_of_not (by omega), t, u, ht, hu, htpc, hupc, fun k hk hdown => ?_,
    fun k hk hup => ?_, fun hge => ?_⟩
  · have hflag := (State.isDown_asInt_of_eq hk).trans hdown
    exact ⟨tskip hflag, ustay hflag⟩
  · exact whenUp ((State.isDown_asInt_of_eq hk).trans hup)
  · exact whenUp (State.isDown_asInt_of_ge hge)

/-- Settles O42: a write to one register, and a write to each timer. -/
theorem timerMoves : Obligations.TimerMoves := fun x _ =>
  ⟨decode_of_encode_eq (wordXI_eq_wordXNN 0xF x 0x07), decode_of_encode_eq (wordXI_eq_wordXNN 0xF x 0x15),
    decode_of_encode_eq (wordXI_eq_wordXNN 0xF x 0x18), exec_setV rfl, rfl, rfl⟩

end Sys2Proof.Machine
end

section
/-! Proofs of the exception and host-operation statements (`60_exceptions.md`): the two faults of a running
machine (R134, R135, R138), the operations on a halted one (R143), `TICK` (R146, R147) and `KEY_SET` (R150). -/

namespace Sys2Proof.Machine

section Exceptions
variable {s t : State}

/-! ## The fault an instruction raises (R135) -/

/-- Of all instructions only a call with no room sets the latch. -/
theorem eq_call_of_exec_halts {i : Instr} (h : exec i s = .next t) (hrun : s.halted = false)
    (hhalt : t.halted = true) : ∃ nnn, i = .call nnn ∧ 16 ≤ s.stack.length := by
  obtain ⟨-, -, -, -, -, -, -, hlatch⟩ := eachPieceOfStateHasItsWriters i s t h
  exact hlatch (.inl (by simp [hrun, hhalt]))

/-- The report of a call with no room names the word fetched and its address (R139). -/
theorem exec_call_overflow_of_fetch {nnn : Addr12} (hd : decode s.fetchWord = .ok (.call nnn))
    (hge : 16 ≤ s.stack.length) :
    exec (.call nnn) s.advancePc = .next (s.advancePc.raiseFault .stackOverflow s.fetchWord s.pc) := by
  rw [exec_call_of_ge nnn (by simpa using hge), encode_of_decode hd, State.pc0_advancePc]

/-! ## Timers (R146, R147) -/

theorem tickTimer_toNat (b : Byte) : (tickTimer b).toNat = b.toNat - 1 := by
  by_cases h : b = 0
  · simp [tickTimer, h]
  · rw [tickTimer, if_neg h]
    bv_omega

theorem State.doTick_of_halted (h : s.halted = true) : s.doTick = s := if_pos h

theorem State.doTick_of_running (h : s.halted = false) :
    s.doTick = { s with dt := tickTimer s.dt, st := tickTimer s.st } := by
  simp [State.doTick, h, State.setDt, State.setSt]

@[simp] theorem runOps_cons (op : HostOp) (ops : List HostOp) (s : State) :
    runOps (op :: ops) s = runOps ops (perform op s).1 := rfl

/-! ## Keys (R150) -/

theorem State.keySet_eq (s : State) (key : Int) (down : Bool) :
    s.keySet key down = { s with keys := (s.keySet key down).keys } := by
  unfold State.keySet
  split <;> rfl

theorem State.keySet_of_not {key : Int} (down : Bool) (h : ¬ (0 ≤ key ∧ key ≤ 15)) :
    s.keySet key down = s := dif_neg h

/-! ## The halted machine (R143) -/

/-- `STEP` and `TICK` test the latch, and the reads change nothing in any state. -/
theorem perform_fst_of_halted {op : HostOp} (hh : s.halted = true) (hreset : op ≠ .reset)
    (hload : ∀ bytes, op ≠ .load bytes) (hkey : ∀ k d, op ≠ .keySet k d) : (perform op s).1 = s := by
  cases op with
  | reset => exact absurd rfl hreset
  | load bytes => exact absurd rfl (hload bytes)
  | keySet key down => exact absurd rfl (hkey key down)
  | step rnd => exact congrArg Prod.fst (haltedStepReturnsRecordedFault s rnd hh)
  | tick => exact State.doTick_of_halted hh
  | getPixel _ _ | sound | faultStatus => rfl

end Exceptions

/-! ## The statements -/

/-- Settles O47, by induction on the ticks: each lowers both timers by 1 and leaves the machine running. -/
theorem timersReachZeroAfterTheirTicks : Obligations.TimersReachZeroAfterTheirTicks := by
  intro n
  induction n with
  | zero => exact fun s _ => ⟨rfl, rfl⟩
  | succ n ih =>
    intro s hrun
    have htick := State.doTick_of_running hrun
    obtain ⟨hdt, hst⟩ := ih s.doTick (by rw [htick]; exact hrun)
    rw [List.replicate_succ, runOps_cons]
    refine ⟨hdt.trans ?_, hst.trans ?_⟩ <;> rw [htick, tickTimer_toNat] <;> omega

/-- Settles O52: the fetch of an invalid word and a call with no room are the only steps that set the latch,
and each sets it by a fault entry on the state as the fetch left it. -/
theorem faultsArePrecise : Obligations.FaultsArePrecise := by
  intro s t hrun hroom hst hhalt
  rcases step_cases s with ⟨hh, -⟩ | ⟨-, i, hd, hexec⟩ | ⟨-, e, hd, hfault⟩
  · exact absurd hh (by simp [hrun])
  · rw [hexec] at hst
    obtain ⟨nnn, rfl, hge⟩ := eq_call_of_exec_halts hst hrun hhalt
    rw [exec_call_overflow_of_fetch hd hge] at hst
    obtain rfl := Host.Outcome.next.inj hst
    exact .inr ⟨rfl, hroom.antisymm hge, nnn, hd⟩
  · rw [hfault] at hst
    obtain rfl := Host.Outcome.next.inj hst
    exact .inl ⟨rfl, e, hd⟩

/-- Settles O55: `KEY_SET` writes the keys alone, and the operations that are left change nothing. -/
theorem haltedMachineIsFrozen : Obligations.HaltedMachineIsFrozen := by
  rintro op s _ hh hreset hload rfl
  have hfrozen := perform_fst_of_halted hh hreset hload
  refine ⟨?_, hfrozen⟩
  by_cases hkey : ∃ k d, op = .keySet k d
  · obtain ⟨key, down, rfl⟩ := hkey
    exact s.keySet_eq key down
  · rw [hfrozen fun k d h => hkey ⟨k, d, h⟩]

/-- Settles O46, by the latch. -/
theorem tickLowersTimers : Obligations.TickLowersTimers := by
  refine fun s => ⟨s.doTick, rfl, State.doTick_of_halted, fun hrun => ?_⟩
  rw [State.doTick_of_running hrun]
  exact ⟨tickTimer_toNat _, tickTimer_toNat _, rfl⟩

/-- Settles O48: the flags are read as `IsDown` of the key numbers, which says what `KEY_SET` does to each. -/
theorem keySetSetsOneKey : Obligations.KeySetSetsOneKey := by
  refine fun key down s => ⟨s.keySet key down, rfl, fun k hk => ?_, fun k hk => ?_, s.keySet_eq key down,
    fun hoff => State.keySet_of_not down (by omega)⟩
  · rw [← State.isDown_key, State.isDown_keySet, if_pos (by omega)]
  · rw [← State.isDown_key, State.isDown_keySet, if_neg (fun h => hk h.1.symm), State.isDown_key]

end Sys2Proof.Machine
end

section
/-! Proofs of the reset and hazard statements (`70_reset_and_hazards.md`): `LOAD` (R159, R50), the first
`STEP` of a reset machine (R160), and the jump to itself that ends a program (R172). -/

namespace Sys2Proof.Machine

/-! ## Memory after a program load (R50) -/

/-- A byte of the sequence that lands on a cell is read back from there. -/
theorem Memory.read_load_of_lt {m : Memory} {a k : Nat} {bytes : List Byte} (hk : k < bytes.length)
    (hcell : a + k < 4096) : (m.load a bytes).read (BitVec.ofNat 16 (a + k)) = bytes[k] := by
  have haddr : (BitVec.ofNat 16 (a + k)).toNat = a + k := by rw [BitVec.toNat_ofNat]; omega
  rw [Memory.read_of_lt (by omega), haddr, Memory.cell_load, dif_pos (by omega)]
  simp only [Nat.add_sub_cancel_left]

/-- An address outside the places of the sequence reads as before. -/
theorem Memory.read_load_of_outside {m : Memory} {a : Nat} {bytes : List Byte} {w : Word}
    (h : w.toNat < a ∨ a + bytes.length ≤ w.toNat) : (m.load a bytes).read w = m.read w := by
  by_cases hw : w.toNat < 4096
  · rw [Memory.read_of_lt hw, Memory.read_of_lt hw, Memory.cell_load, dif_neg (by omega)]
  · rw [Memory.read_of_ge (by omega), Memory.read_of_ge (by omega)]

/-! ## `LOAD` and the state before it (R159) -/

/-- `RESET` takes from the state before it only the model's own two fields. -/
theorem State.doReset_congr {s s' : State} (hsupply : s'.rndSupply = s.rndSupply)
    (hdraws : s'.rndDraws = s.rndDraws) : s'.doReset = s.doReset := by
  rw [State.doReset, State.doReset, hsupply, hdraws]

/-- So does `LOAD`, which begins with a `RESET`. -/
theorem State.doLoad_congr {s s' : State} (bytes : List Byte) (hsupply : s'.rndSupply = s.rndSupply)
    (hdraws : s'.rndDraws = s.rndDraws) : s'.doLoad bytes = s.doLoad bytes := by
  rw [State.doLoad, State.doLoad, State.doReset_congr hsupply hdraws]

/-! ## The word at the entry point (R160) -/

/-- The font ends below the entry point, so the first word fetched after reset is 0x0000. -/
theorem State.fetchWord_reset : State.reset.fetchWord = 0x0000#16 := by
  have hhi : State.reset.mem.read State.reset.pc = 0 := Memory.read_nil_of_ge (by decide)
  have hlo : State.reset.mem.read (State.reset.pc + 1) = 0 := Memory.read_nil_of_ge (by decide)
  rw [State.fetchWord, hhi, hlo]
  rfl

/-! ## The statements -/

/-- Settles O45: the bytes lie as `Memory.load` puts them into the memory of the reset state. -/
theorem loadPlacesTheProgram : Obligations.LoadPlacesTheProgram := by
  refine fun bytes s => ⟨s.doLoad bytes, rfl, fun k hk hcell => ?_, fun a ha => ?_, rfl,
    fun s' hsupply hdraws => ?_⟩
  · exact Memory.read_load_of_lt hk hcell
  · exact Memory.read_load_of_outside ha
  · rw [perform, State.doLoad_congr bytes hsupply hdraws]

/-- Settles O44: the word at the entry point is 0x0000, which is no instruction. -/
theorem stepAtPowerOnFaults : Obligations.StepAtPowerOnFaults := by
  have hd : decode State.reset.fetchWord = .error .group0 := State.fetchWord_reset ▸ by decide
  refine ⟨State.fetchWord_reset, ?_⟩
  rw [step_of_decode_error hd rfl, State.fetchWord_reset]
  rfl

/-- Settles O54: the jump puts back the `PC` that the fetch advanced, and draws no random byte, so the byte
of `STEP(rnd)` is ignored. -/
theorem selfJumpLeavesTheState : Obligations.SelfJumpLeavesTheState := by
  rintro s rnd ⟨hrun : s.halted = false, nnn, hword, htarget⟩
  have hd : decode s.fetchWord = .ok (.jp nnn) := decode_of_encode_eq hword.symm
  have hstep : step s = .next s := by
    rw [step_of_decode_ok hd hrun, exec, execJp, htarget]
    rfl
  have hwith : stepWith rnd s = .next s := (stepWith_of_not_rnd rnd (by simp [hd])).trans hstep
  exact ⟨hstep, by simp [perform, performStep, hwith, hrun]⟩

end Sys2Proof.Machine
end
